-- ==== Sys2Proof/Config.lean ====
section
/-! DEFINITION. The parameters of the hardware (spec/00_scope.md R6), each at the value the spec takes. -/

namespace Sys2Proof.Config

/-- `WORD_BITS`: the width of one memory cell (R6, D1). -/
def wordBits : Nat := 64

/-- The least Word, `-2^(WORD_BITS-1)` (R7); written out so that it is a numeral for the kernel and for `omega`. -/
abbrev wordMin : Int := -9223372036854775808

/-- The greatest Word, `2^(WORD_BITS-1) - 1` (R7). -/
abbrev wordMax : Int := 9223372036854775807

/-- The greatest `MEM_LEN` of a machine, `2^63 - 1` (R6, D22). -/
abbrev maxMemLen : Nat := 9223372036854775807

/-- The greatest Index a `pc` can hold, `2^63 - 1` (R6 `INDEX_BITS`, spec/10_state.md R22, D3). -/
abbrev maxIndex : Nat := 9223372036854775807

/-- `MAX_OPERANDS` (R6). -/
def maxOperands : Nat := 3

/-- The cells of the longest instruction: the instruction cell and `MAX_OPERANDS` operand cells
(spec/30_encoding.md R62). -/
def maxLength : Nat := 1 + maxOperands

end Sys2Proof.Config
end

