-- ==== Sys2Proof/Word.lean ====
section
/-! DEFINITION. The Word: a signed integer of `WORD_BITS` bits. A cell is an INTEGER and never a row of bits or bytes
(spec/20_memory.md R41), so the model holds it as an `Int`; `isWord` says that an integer is a Word
(spec/00_scope.md R7), and `State.inv` (Sys2Proof/Safety.lean) that every cell of every machine is one. -/

namespace Sys2Proof

/-- `w` is a Word: `-2^(WORD_BITS-1) <= w <= 2^(WORD_BITS-1) - 1` (R7). -/
def isWord (w : Int) : Bool :=
  decide (Config.wordMin ≤ w) && decide (w ≤ Config.wordMax)

/-- The Word that `WORD_BITS` bits stand for when a host outside the spec writes a cell as a natural number: the low
`WORD_BITS` bits read in two's complement (D1: "two's complement range"). No instruction sees it. -/
def wordOfBits (n : Nat) : Int :=
  let low := n % 18446744073709551616
  if low < 9223372036854775808 then (low : Int) else (low : Int) - 18446744073709551616

end Sys2Proof
end

