-- ==== Sys2Proof/Machine/State.lean ====
section
/-! DEFINITION. The state of the whole core: the caller's units (machines and pipes of machines), the `execute` call in
progress, and the operations the caller has asked for. Plain data throughout. -/

namespace Sys2Proof.Machine

/-- The seven failures (spec/60_exceptions.md R200). A failure is no stop of the model: the failing cycle TAKES the failure
entry of R210 and answers a next state in which the name is latched in the machine's `fault`. No step answers
`Outcome.fault`. Safe: the spec describes the entry. -/
inductive Fault where
  /-- Raised by the decode step of any cycle: the opcode field selects no operation, or the cell is negative (R201). Safe. -/
  | invalidOpCode
  /-- Raised by the decode step: a used mode digit is not 0 or 1 (R202). Safe. -/
  | invalidParameterMode
  /-- Raised by operand reads and writes through Reference, and by taken jumps: the index is negative (R203). Safe. -/
  | invalidAddress
  /-- Raised by the write of ADD, MUL, LT, EQ, IN: the destination is in Immediate mode (R204). Safe. -/
  | immediateModeOutput
  /-- Raised by every fetch of an instruction cell or operand cell at or beyond `MEM_LEN` (R206). Safe. -/
  | unexpectedEndOfFile
  /-- Raised by operand reads and writes through Reference: the index is at or beyond `MEM_LEN` (R207). Safe. -/
  | outOfBounds
  /-- Raised by ADD and MUL: the exact result is no Word (R208). Safe. -/
  | arithmeticOverflow
deriving DecidableEq, Repr

/-- Why the model gives no next state. No instruction is refused: all but the first are operations the caller asks for that the
spec does not define, or that its types cannot express. All are safe: the model stops. -/
inductive Refusal where
  /-- An instruction with no meaning yet, by its mnemonic; raised only by an arm of `exec` (no arm raises it). Safe. -/
  | notModelled (mnemonic : String)
  /-- Raised by an operation of the caller on a handle that names no unit it holds (spec/46_machine_and_pipe.md R179). Safe. -/
  | noSuchUnit
  /-- Raised by `Pipe(A, A)`: a unit occurs once in one tree (spec/93_implementation_defined.md U11). Safe. -/
  | composedWithItself
  /-- Raised by `snapshot()` on a pipe: no such operation exists (spec/93_implementation_defined.md U13). Safe. -/
  | snapshotOfPipe
  /-- Raised by `clone()` on a pipe: no such operation exists (spec/93_implementation_defined.md U13). Safe. -/
  | cloneOfPipe
  /-- Raised by `Machine(image)` and `execute(input)` given an integer that is no Word: the interface carries Words
  (spec/44_input_output.md R152). Safe. -/
  | notWords
  /-- Raised by `Machine(image)` with an image longer than `2^63 - 1` cells (spec/46_machine_and_pipe.md R170). Safe. -/
  | imageTooLong
deriving DecidableEq, Repr

/-- `run_state` (spec/10_state.md R25). -/
inductive RunState where
  | running
  | awaitingInput
  | finished
deriving DecidableEq, Repr

/-- Why a call is refused (spec/46_machine_and_pipe.md R174, R176): not a failure, not latched. -/
inductive CallRefusal where
  | executeOnFinished
deriving DecidableEq, Repr

/-- The result of an `execute` call (spec/46_machine_and_pipe.md R174). -/
inductive Result where
  /-- `Ok(out)`: the call ended by suspension or by halt. -/
  | ok (outputs : List Int)
  /-- `Err(F)`: a machine failed in this call or had failed before. -/
  | err (f : Fault)
  /-- `Refused(ExecuteOnFinished)`. -/
  | refused (r : CallRefusal)
deriving DecidableEq, Repr

/-- One machine (spec/10_state.md R21, R25, R27, R29). -/
structure MachineState where
  /-- `mem`: element i is cell i, a Word (spec/20_memory.md R40, spec/00_scope.md R11); its length is `MEM_LEN`. Every
  index below the length has a cell and no other index exists, so equal memories are equal lists. -/
  mem : List Int
  /-- `pc`, an Index (R21). -/
  pc : Nat
  /-- `run_state` (R25). -/
  runState : RunState
  /-- The fault latch (R27). -/
  fault : Option Fault
deriving DecidableEq, Repr

/-- A unit: a machine, or a pipe that holds its two members by value (spec/46_machine_and_pipe.md R179). -/
inductive ExecUnit where
  | machine (m : MachineState)
  | pipe (first second : ExecUnit)
deriving DecidableEq, Repr

/-- Where in a pipe the running machine stands (spec/46_machine_and_pipe.md R181): in the first member, with the second still to be
called, or in the second member, with the first member's call complete. -/
inductive Frame where
  | inFirst (second : ExecUnit)
  | inSecond (first : ExecUnit)
deriving DecidableEq, Repr

/-- An `execute` call in progress: the machine whose turn it is, its call-local values, and the rest of its unit. -/
structure Call where
  /-- The handle of the unit that was called. -/
  handle : Nat
  /-- The pipes around the running machine, innermost first. -/
  ctx : List Frame
  /-- The machine whose call is running. -/
  machine : MachineState
  /-- `inq`, front first (spec/10_state.md R28(b)). -/
  inq : List Int
  /-- `out`, oldest first (spec/10_state.md R28(c)). -/
  out : List Int
  /-- `none` while the machine's call runs; its result from the cycle that ended it until it is handed on. -/
  ended : Option Result
deriving DecidableEq, Repr

/-- The operations of the caller, all seven of spec/46_machine_and_pipe.md R190. -/
inductive Request where
  /-- `load(text)`. -/
  | load (text : List Char)
  /-- `Machine(image)`. -/
  | construct (image : List Int)
  /-- `clone()` of the machine `h`. -/
  | clone (h : Nat)
  /-- `Pipe(A, B)`. -/
  | compose (a b : Nat)
  /-- `execute(input)` of the unit `h`. -/
  | execute (h : Nat) (input : List Int)
  /-- `finished()` of the unit `h`. -/
  | finished (h : Nat)
  /-- `snapshot()` of the machine `h`. -/
  | snapshot (h : Nat)
deriving DecidableEq, Repr

/-- What the caller gets (spec/46_machine_and_pipe.md R190). -/
inductive Reply where
  /-- `load`: the memory sequence. -/
  | loaded (image : List Int)
  /-- `load`: the load error (spec/60_exceptions.md R214). -/
  | loadError
  /-- `Machine`, `clone`, `Pipe`: the new unit's handle. -/
  | made (h : Nat)
  /-- `execute`: the call on unit `h` returned. -/
  | executed (h : Nat) (r : Result)
  /-- `finished`. -/
  | finishedIs (h : Nat) (b : Bool)
  /-- `snapshot`: a copy of `mem`. -/
  | snapshotIs (h : Nat) (cells : List Int)
deriving DecidableEq, Repr

/-- The whole state. -/
structure State where
  /-- The caller's units; a unit's handle is its position. `none`: the unit has passed into a pipe (ownership passes,
  spec/46_machine_and_pipe.md R190), or is in the call in progress. -/
  units : List (Option ExecUnit)
  /-- The `execute` call in progress, if there is one. -/
  call : Option Call
  /-- The operations the caller has asked for and that have not begun, first to be performed first. -/
  requests : List Request
  /-- What the caller has been given, oldest first. -/
  replies : List Reply
deriving DecidableEq, Repr

/-- `Machine(image)`: the reset of a machine (spec/10_state.md R33, spec/46_machine_and_pipe.md R170). -/
def MachineState.new (image : List Int) : MachineState :=
  { mem := image, pc := 0, runState := .running, fault := none }

/-- Right after the construction of one machine from `image`, which the caller holds under handle 0: no call, nothing asked
for. -/
def State.boot (image : List Int) : State :=
  { units := [some (.machine (MachineState.new image))], call := none, requests := [], replies := [] }

/-- Reset. The spec's reset is construction from an image that comes from outside (spec/70_reset_and_hazards.md R230); with no image
given the model takes the empty one, which R237 allows (DESIGN CHOICE, log entry 1). -/
def State.reset : State := State.boot []

end Sys2Proof.Machine
end

