-- ==== Sys2Proof/Machine/Flags.lean ====
section
/-! DEFINITION. The machine has no flags and no condition codes (spec/10_state.md R24). What stands in their place: the
Word a comparison writes, the truth of a tested operand, and the range check of a result. -/

namespace Sys2Proof.Machine

/-- The Word a comparison writes: 1 or 0, never another (spec/43_arithmetic_compare.md R142, R143). -/
def truthWord (b : Bool) : Int := if b then 1 else 0

/-- Zero is false and every other Word true (spec/43_arithmetic_compare.md R145(e)). -/
def truthOf (v : Int) : Bool := decide (v ≠ 0)

/-- An exact result that is a Word, or `ArithmeticOverflow`: never wrapped, saturated or truncated
(spec/43_arithmetic_compare.md R144). -/
def narrow (r : Int) : Except Fault Int :=
  if isWord r then .ok r else .error .arithmeticOverflow

end Sys2Proof.Machine
end

