-- ==== Sys2Proof/Syntax.lean ====
section
/-! DEFINITION. The instructions: one constructor per row of spec/opcode_table.json, with the addressing modes of its
operands as fields, as the decoder delivers them (spec/40_decoder.md R81). The raw values of the operands are NOT part of
the term: the engine fetches operand cell k and reads operand k before it fetches operand cell k+1
(spec/42_execution_engine.md R119, spec/60_exceptions.md R205), so they are read by the meanings. -/

namespace Sys2Proof

/-- The addressing modes (spec/41_parameter_resolver.md R105): digit 0 Reference, digit 1 Immediate. -/
inductive Mode where
  | reference
  | immediate
deriving DecidableEq, Repr

/-- The nine operations (spec/30_encoding.md R64) with the modes of operand1, operand2, operand3. -/
inductive Instr where
  /-- ADD, opcode 1: `operand3 = operand1 + operand2`. -/
  | add (m1 m2 m3 : Mode)
  /-- MUL, opcode 2: `operand3 = operand1 * operand2`. -/
  | mul (m1 m2 m3 : Mode)
  /-- IN, opcode 3: read one input value into operand1 (`in` is a word of Lean's own). -/
  | inp (m1 : Mode)
  /-- OUT, opcode 4: emit operand1's value. -/
  | out (m1 : Mode)
  /-- JT, opcode 5: jump to operand2 if operand1 is not 0. -/
  | jt (m1 m2 : Mode)
  /-- JF, opcode 6: jump to operand2 if operand1 is 0. -/
  | jf (m1 m2 : Mode)
  /-- LT, opcode 7: `operand3 = 1 if operand1 < operand2 else 0`. -/
  | lt (m1 m2 m3 : Mode)
  /-- EQ, opcode 8: `operand3 = 1 if operand1 == operand2 else 0`. -/
  | eq (m1 m2 m3 : Mode)
  /-- HLT, opcode 99: halt. -/
  | hlt
deriving DecidableEq, Repr

/-- What the decoder answers for a cell that is no instruction (spec/40_decoder.md R85). -/
inductive DecodeError where
  /-- The cell is negative or its opcode field selects no operation (R84, R87). -/
  | invalidOpCode
  /-- A used mode digit is 2 to 9 (R83, R84). -/
  | invalidParameterMode
deriving DecidableEq, Repr

/-- The value of the opcode field `OP` of each operation (spec/30_encoding.md R64). -/
def Instr.opcode : Instr → Nat
  | .add _ _ _ => 1
  | .mul _ _ _ => 2
  | .inp _ => 3
  | .out _ => 4
  | .jt _ _ => 5
  | .jf _ _ => 6
  | .lt _ _ _ => 7
  | .eq _ _ _ => 8
  | .hlt => 99

/-- The modes of the operands, in operand order (spec/40_decoder.md R81). -/
def Instr.modes : Instr → List Mode
  | .add a b c | .mul a b c | .lt a b c | .eq a b c => [a, b, c]
  | .jt a b | .jf a b => [a, b]
  | .inp a | .out a => [a]
  | .hlt => []

/-- The operand count, `count(op)` of spec/40_decoder.md R82. -/
def Instr.count (i : Instr) : Nat := i.modes.length

/-- The length in cells, `1 + count(op)` (spec/30_encoding.md R62). -/
def Instr.length (i : Instr) : Nat := 1 + i.count

/-- The mode of the destination operand, for the operations that have one (spec/30_encoding.md R65). -/
def Instr.destination : Instr → Option Mode
  | .add _ _ c | .mul _ _ c | .lt _ _ c | .eq _ _ c => some c
  | .inp a => some a
  | .out _ | .jt _ _ | .jf _ _ | .hlt => none

end Sys2Proof
end

