-- ==== Sys2Proof/WellFormed.lean ====
section
/-! DEFINITION. Well-formed instructions: those whose every mode digit is "legal" in the sense of spec/opcode_table.json (a
destination must be Reference, spec/30_encoding.md R65, R66). An ill-formed instruction still decodes (spec/40_decoder.md
R89) and has its meaning: it fails when its write is attempted (spec/30_encoding.md R69). -/

namespace Sys2Proof

/-- The destination operand, if there is one, is in Reference mode (spec/30_encoding.md R65). -/
def Instr.wf (i : Instr) : Bool := decide (i.destination ≠ some .immediate)

end Sys2Proof
end

