-- ==== Sys2Proof/Decode.lean ====
section
/-! DEFINITION. The decoder (spec/40_decoder.md R84), total on every cell value, and after it the encoder (R90(d)). -/

namespace Sys2Proof

/-- `digit(v, k)`: the k-th decimal digit of `v`, the least significant being digit 0 (spec/00_scope.md R7). -/
def digit (v k : Nat) : Nat := v / 10 ^ k % 10

/-- The mode a mode digit stands for; 2 to 9 stand for none (spec/40_decoder.md R83). -/
def modeOfDigit (d : Nat) : Except DecodeError Mode :=
  if d = 0 then .ok .reference
  else if d = 1 then .ok .immediate
  else .error .invalidParameterMode

/-- The mode of operand k, from decimal digit k+1 of the cell (spec/40_decoder.md R83). -/
def modeOf (v k : Nat) : Except DecodeError Mode := modeOfDigit (digit v (k + 1))

/-- The modes of a one-operand operation, format F1 (spec/30_encoding.md R62). -/
def decodeF1 (mk : Mode → Instr) (v : Nat) : Except DecodeError Instr := do
  let a ← modeOf v 1
  return mk a

/-- The modes of a two-operand operation, format F2, operand1's digit first (spec/40_decoder.md R86). -/
def decodeF2 (mk : Mode → Mode → Instr) (v : Nat) : Except DecodeError Instr := do
  let a ← modeOf v 1
  let b ← modeOf v 2
  return mk a b

/-- The modes of a three-operand operation, format F3, operand1's digit first (spec/40_decoder.md R86). -/
def decodeF3 (mk : Mode → Mode → Mode → Instr) (v : Nat) : Except DecodeError Instr := do
  let a ← modeOf v 1
  let b ← modeOf v 2
  let c ← modeOf v 3
  return mk a b c

/-- The decoder on a cell value that is not negative: the opcode first, then the mode digits of the operands the
operation needs and no other digit (spec/40_decoder.md R84, R86, R88). -/
def decodeNat (v : Nat) : Except DecodeError Instr :=
  match v % 100 with
  | 1 => decodeF3 .add v
  | 2 => decodeF3 .mul v
  | 3 => decodeF1 .inp v
  | 4 => decodeF1 .out v
  | 5 => decodeF2 .jt v
  | 6 => decodeF2 .jf v
  | 7 => decodeF3 .lt v
  | 8 => decodeF3 .eq v
  | 99 => .ok .hlt
  | _ => .error .invalidOpCode

/-- `Decode(v)` (spec/40_decoder.md R84): every negative cell is `InvalidOpCode`, with no remainder computed (R87). -/
def decode (v : Int) : Except DecodeError Instr :=
  if v < 0 then .error .invalidOpCode else decodeNat v.toNat

/-- The digit of a mode (spec/41_parameter_resolver.md R105). -/
def Mode.digit : Mode → Nat
  | .reference => 0
  | .immediate => 1

/-- The mode fields of an instruction cell divided by 100: operand1 is the units digit, operand2 the tens digit,
operand3 the hundreds digit (spec/30_encoding.md R61). -/
def encodeModes : List Mode → Nat
  | [] => 0
  | m :: ms => m.digit + 10 * encodeModes ms

/-- `Encode(op, ms)`: the canonical instruction cell, `OP + 100*A + 1000*B + 10000*C`, every unused digit 0
(spec/40_decoder.md R90(d), spec/30_encoding.md R76). -/
def encode (i : Instr) : Int := ((i.opcode + 100 * encodeModes i.modes : Nat) : Int)

/-- The instruction the decoder reads from an instruction whose bits are `w`, the first cell in its low `WORD_BITS` bits
(the numbering of the host's table; the spec itself has no bits). The decoder reads only the instruction cell
(spec/40_decoder.md R80); the table gives its rows no bits, so `w` is taken whole whatever `nbits` is. -/
def decodeTableWord (_nbits w : Nat) : Option Instr :=
  match decode (wordOfBits w) with
  | .ok i => some i
  | .error _ => none

end Sys2Proof
end

