-- ==== Sys2Proof/Machine/Ops.lean ====
section
/-! DEFINITION. The named operations over one machine and over the call in progress: the memory primitives, the fetch, the
failure entry, and the ways a call ends. -/

namespace Sys2Proof.Machine

/-- `MemRead(i, 1)` (spec/00_scope.md R9), `none` where no cell exists. -/
def memRead (m : MachineState) (i : Nat) : Option Int := m.mem[i]?

/-- `MemWrite(i, 1, v)` (spec/00_scope.md R9): cell `i` becomes `v`, every other cell and the length stay. -/
def memWrite (m : MachineState) (i : Nat) (v : Int) : MachineState := { m with mem := m.mem.set i v }

/-- `pc <- i`. -/
def setPc (m : MachineState) (i : Nat) : MachineState := { m with pc := i }

/-- `run_state <- r`. -/
def setRunState (m : MachineState) (r : RunState) : MachineState := { m with runState := r }

/-- `fault <- f`. -/
def setFault (m : MachineState) (f : Fault) : MachineState := { m with fault := some f }

/-- `Fetch(i)`: one cell of the instruction stream (spec/42_execution_engine.md R117). -/
def fetch (m : MachineState) (i : Nat) : Except Fault Int :=
  match memRead m i with
  | some v => .ok v
  | none => .error .unexpectedEndOfFile

/-- The failure a decoder failure is (spec/60_exceptions.md R201, R202). -/
def decodeFault : DecodeError → Fault
  | .invalidOpCode => .invalidOpCode
  | .invalidParameterMode => .invalidParameterMode

/-- The first two steps of the cycle: fetch the instruction cell at `pc` and decode it (spec/42_execution_engine.md R119). -/
def fetchInstr (m : MachineState) : Except Fault Instr :=
  match fetch m m.pc with
  | .error f => .error f
  | .ok v =>
    match decode v with
    | .ok i => .ok i
    | .error e => .error (decodeFault e)

/-- The call on the running machine has ended with `r`: what is left of `inq` and `out` is discarded
(spec/10_state.md R28, spec/42_execution_engine.md R131). -/
def endCall (r : Result) (c : Call) : Call := { c with inq := [], out := [], ended := some r }

/-- FAILURE ENTRY, the one exception entry of the machine (spec/60_exceptions.md R210): the name is latched; `mem`, `pc` and
`run_state` keep the values they had at the start of the cycle; `out` and `inq` are discarded; the call returns `Err(F)`.
There is no handler, no vector and no mode. -/
def raise (f : Fault) (c : Call) : Call :=
  endCall (.err f) { c with machine := setFault c.machine f }

/-- There is NO RETURN from a failure (spec/60_exceptions.md R212): what stands beside the entry is that a machine whose latch
is set executes no cycle (R213), and one that is not Running neither (spec/42_execution_engine.md R119, R127). -/
def runnable (m : MachineState) : Bool := decide (m.runState = .running) && decide (m.fault = none)

/-- What `execute` does on the machine before any cycle, by its latch and run state (spec/42_execution_engine.md R127, R128). -/
def enterCall (c : Call) : Call :=
  match c.machine.fault with
  | some f => endCall (.err f) c
  | none =>
    match c.machine.runState with
    | .finished => endCall (.refused .executeOnFinished) c
    | .running | .awaitingInput => { c with machine := setRunState c.machine .running }

/-- Suspension (spec/42_execution_engine.md R124): `pc` stays, `run_state <- Awaiting-Input`, the call returns `Ok(out)`. -/
def suspend (c : Call) : Call :=
  endCall (.ok c.out) { c with machine := setRunState c.machine .awaitingInput }

/-- The outcome Halted (spec/42_execution_engine.md R126): `run_state <- Finished`, the call returns `Ok(out)`. -/
def halt (c : Call) : Call :=
  endCall (.ok c.out) { c with machine := setRunState c.machine .finished }

/-- The end of a cycle whose effect on the machine was computed, or failed before it had any. -/
def settle (c : Call) (r : Except Fault MachineState) : Call :=
  match r with
  | .ok m => { c with machine := m }
  | .error f => raise f c

/-- The engine acts on the machine of the call in progress and on nothing else, and does nothing between calls
(spec/42_execution_engine.md R115). -/
def inCall (s : State) (effect : Call → Call) : Host.Outcome State Fault Refusal :=
  match s.call with
  | some c => .next { s with call := some (effect c) }
  | none => .next s

end Sys2Proof.Machine
end

