-- ==== Sys2Proof/Machine/Operands.lean ====
section
/-! DEFINITION. The parameter resolver (spec/41_parameter_resolver.md): reading and writing one operand by its mode, for
both modes the hardware has. -/

namespace Sys2Proof.Machine

/-- The index a Word stands for: negative Words stand for none (spec/41_parameter_resolver.md R101, spec/60_exceptions.md
R203). -/
def indexOf (raw : Int) : Except Fault Nat :=
  if raw < 0 then .error .invalidAddress else .ok raw.toNat

/-- `ReadOperand(mode, raw)` (spec/41_parameter_resolver.md R101). -/
def readOperand (m : MachineState) (mode : Mode) (raw : Int) : Except Fault Int :=
  match mode with
  | .immediate => .ok raw
  | .reference => do
    let i ← indexOf raw
    match memRead m i with
    | some v => .ok v
    | none => .error .outOfBounds

/-- `WriteOperand(mode, raw, v)` (spec/41_parameter_resolver.md R103): the mode first, then the sign, then the bound (R104). -/
def writeOperand (m : MachineState) (mode : Mode) (raw v : Int) : Except Fault MachineState :=
  match mode with
  | .immediate => .error .immediateModeOutput
  | .reference => do
    let i ← indexOf raw
    if i < m.mem.length then .ok (memWrite m i v) else .error .outOfBounds

/-- Operand cell k: the cell k after the instruction cell (spec/42_execution_engine.md R118, R119). -/
def operandCell (m : MachineState) (k : Nat) : Except Fault Int := fetch m (m.pc + k)

/-- Source operand k: its cell is fetched and, at once, its value read (spec/42_execution_engine.md R119). -/
def sourceOperand (m : MachineState) (mode : Mode) (k : Nat) : Except Fault Int := do
  let raw ← operandCell m k
  readOperand m mode raw

end Sys2Proof.Machine
end

