-- ==== Sys2Proof/Machine/Arithmetic.lean ====
section
/-! DEFINITION. ADD, MUL, LT, EQ (spec/43_arithmetic_compare.md): format F3, two sources and a destination. -/

namespace Sys2Proof.Machine

/-- What the four share (spec/42_execution_engine.md R119): operand1, operand2, the destination's cell, the result `f`, the
write, and `pc <- start + 4`. -/
def binary (f : Int → Int → Except Fault Int) (m1 m2 m3 : Mode) (m : MachineState) : Except Fault MachineState := do
  let a ← sourceOperand m m1 1
  let b ← sourceOperand m m2 2
  let raw ← operandCell m 3
  let r ← f a b
  let m' ← writeOperand m m3 raw r
  return setPc m' (m.pc + 4)

/-- ADD: the exact sum if it is a Word (R140). -/
def addResult (a b : Int) : Except Fault Int := narrow (a + b)

/-- MUL: the exact product if it is a Word (R141). -/
def mulResult (a b : Int) : Except Fault Int := narrow (a * b)

/-- LT: the signed strict comparison (R142). -/
def ltResult (a b : Int) : Except Fault Int := .ok (truthWord (decide (a < b)))

/-- EQ: integer equality (R143). -/
def eqResult (a b : Int) : Except Fault Int := .ok (truthWord (decide (a = b)))

/-- ADD (R140). -/
def execAdd (m1 m2 m3 : Mode) (s : State) : Host.Outcome State Fault Refusal :=
  inCall s fun c => settle c (binary addResult m1 m2 m3 c.machine)

/-- MUL (R141). -/
def execMul (m1 m2 m3 : Mode) (s : State) : Host.Outcome State Fault Refusal :=
  inCall s fun c => settle c (binary mulResult m1 m2 m3 c.machine)

/-- LT (R142). -/
def execLt (m1 m2 m3 : Mode) (s : State) : Host.Outcome State Fault Refusal :=
  inCall s fun c => settle c (binary ltResult m1 m2 m3 c.machine)

/-- EQ (R143). -/
def execEq (m1 m2 m3 : Mode) (s : State) : Host.Outcome State Fault Refusal :=
  inCall s fun c => settle c (binary eqResult m1 m2 m3 c.machine)

end Sys2Proof.Machine
end

