-- ==== Sys2Proof/Machine/ControlTransfer.lean ====
section
/-! DEFINITION. JT, JF and HLT (spec/45_control_transfer.md): formats F2 and F0. -/

namespace Sys2Proof.Machine

/-- What JT and JF share (R160 to R162): both operands are read whether or not the jump is taken; a taken jump to a negative
target is `InvalidAddress`, to any other index is committed; a jump that is not taken goes to `start + 3`. -/
def jump (taken : Int → Bool) (m1 m2 : Mode) (m : MachineState) : Except Fault MachineState := do
  let v ← sourceOperand m m1 1
  let t ← sourceOperand m m2 2
  if taken v then
    let i ← indexOf t
    return setPc m i
  else return setPc m (m.pc + 3)

/-- JT (R160): taken when operand1 is not 0. -/
def execJt (m1 m2 : Mode) (s : State) : Host.Outcome State Fault Refusal :=
  inCall s fun c => settle c (jump truthOf m1 m2 c.machine)

/-- JF (R161): taken when operand1 is 0. -/
def execJf (m1 m2 : Mode) (s : State) : Host.Outcome State Fault Refusal :=
  inCall s fun c => settle c (jump (fun v => !truthOf v) m1 m2 c.machine)

/-- HLT (R163): `run_state <- Finished`, `pc <- start + 1`, the call ends with its outputs. -/
def execHlt (s : State) : Host.Outcome State Fault Refusal :=
  inCall s fun c => halt { c with machine := setPc c.machine (c.machine.pc + 1) }

end Sys2Proof.Machine
end

