-- ==== Sys2Proof/Machine/InputOutput.lean ====
section
/-! DEFINITION. IN and OUT (spec/44_input_output.md): format F1. -/

namespace Sys2Proof.Machine

/-- A completed IN on the machine: the value `x` stored through operand1, `pc <- start + 2` (R150). -/
def storeInput (m1 : Mode) (raw x : Int) (m : MachineState) : Except Fault MachineState := do
  let m' ← writeOperand m m1 raw x
  return setPc m' (m.pc + 2)

/-- IN on the call (R150): the operand cell is fetched first; then an empty queue suspends, before the write's checks;
then the front value is removed and stored. -/
def inputEffect (m1 : Mode) (c : Call) : Call :=
  match operandCell c.machine 1 with
  | .error f => raise f c
  | .ok raw =>
    match c.inq with
    | [] => suspend c
    | x :: rest => settle { c with inq := rest } (storeInput m1 raw x c.machine)

/-- OUT on the call (R151): the value is appended to `out`, `pc <- start + 2`. -/
def outputEffect (m1 : Mode) (c : Call) : Call :=
  match sourceOperand c.machine m1 1 with
  | .error f => raise f c
  | .ok v => { c with out := c.out ++ [v], machine := setPc c.machine (c.machine.pc + 2) }

/-- IN (R150). -/
def execIn (m1 : Mode) (s : State) : Host.Outcome State Fault Refusal :=
  inCall s (inputEffect m1)

/-- OUT (R151). -/
def execOut (m1 : Mode) (s : State) : Host.Outcome State Fault Refusal :=
  inCall s (outputEffect m1)

end Sys2Proof.Machine
end

