-- ==== Sys2Proof/Machine/Units.lean ====
section
/-! DEFINITION. Units (spec/46_machine_and_pipe.md): `finished()`, and how an `execute` call goes into a pipe, from its first
member to its second, and back to the caller. -/

namespace Sys2Proof.Machine

/-- `finished()`: of a machine, `run_state = Finished` (R172); of a pipe, that EITHER member is finished (R182). -/
def unitFinished : ExecUnit → Bool
  | .machine m => decide (m.runState = .finished)
  | .pipe a b => unitFinished a || unitFinished b

/-- The first machine a call on the unit reaches, and the pipes around it (R181: a pipe calls its first member first). -/
def firstMachine : ExecUnit → List Frame → MachineState × List Frame
  | .machine m, ctx => (m, ctx)
  | .pipe a b, ctx => firstMachine a (.inFirst b :: ctx)

/-- `execute(input)` on a unit begins: `inq` holds the input, front first, `out` is empty
(spec/42_execution_engine.md R128, R130). -/
def openCall (handle : Nat) (u : ExecUnit) (ctx : List Frame) (input : List Int) : Call :=
  let (m, ctx') := firstMachine u ctx
  { handle := handle, ctx := ctx', machine := m, inq := input, out := [], ended := none }

/-- What a call whose innermost unit returned does next. -/
inductive Onward where
  /-- It is over: the unit, and the result for the caller. -/
  | back (u : ExecUnit) (r : Result)
  /-- The second member of a pipe is called with the first member's outputs. -/
  | next (second : ExecUnit) (ctx : List Frame) (input : List Int)
deriving DecidableEq, Repr

/-- The pipe's part of `Execute` (R181): a first member's `Ok(mid)` is handed to the second member, whole and in order
(R183); its failure or refusal is the pipe's result and the second member is not called (R184); a second member's result
is the pipe's. No member's work is undone. -/
def handOn (u : ExecUnit) (r : Result) : List Frame → Onward
  | [] => .back u r
  | .inSecond a :: ctx => handOn (.pipe a u) r ctx
  | .inFirst b :: ctx =>
    match r with
    | .ok mid => .next b (.inSecond u :: ctx) mid
    | .err f => handOn (.pipe u b) (.err f) ctx
    | .refused q => handOn (.pipe u b) (.refused q) ctx

/-- The running machine's call has ended with `r`: on to the next member, or back to the caller, who holds the unit again
and gets the result (spec/42_execution_engine.md R128, R129). -/
def returnCall (s : State) (c : Call) (r : Result) : State :=
  match handOn (.machine c.machine) r c.ctx with
  | .next second ctx input => { s with call := some (openCall c.handle second ctx input) }
  | .back u r =>
    { s with
      units := s.units.set c.handle (some u)
      call := none
      replies := s.replies ++ [.executed c.handle r] }

end Sys2Proof.Machine
end

