-- ==== Sys2Proof/Machine/Cycle.lean ====
section
/-! DEFINITION. One step of the call in progress. -/

namespace Sys2Proof.Machine

/-- One cycle of the running machine (spec/42_execution_engine.md R119): fetch, decode, and the operation. -/
def stepCycle (s : State) (c : Call) : Host.Outcome State Fault Refusal :=
  match fetchInstr c.machine with
  | .ok i => exec i s
  | .error f => .next { s with call := some (raise f c) }

/-- One step of the call `c` in progress in `s`: a cycle of the running machine, or what spec/42_execution_engine.md R127 says of a
machine that may not run one, or, its call having ended, the hand-over (spec/46_machine_and_pipe.md R181). -/
def stepCall (s : State) (c : Call) : Host.Outcome State Fault Refusal :=
  match c.ended with
  | some r => .next (returnCall s c r)
  | none => if runnable c.machine then stepCycle s c else .next { s with call := some (enterCall c) }

end Sys2Proof.Machine
end

