-- ==== Sys2Proof/Machine/Loader.lean ====
section
/-! DEFINITION. The program loader (spec/70_reset_and_hazards.md R235, R236): a function from program text to a memory sequence
or a load error. A text is a list of characters. -/

namespace Sys2Proof.Machine

/-- Whitespace at the ends of the text: space, tab, line feed, carriage return (DESIGN CHOICE, log entry 6: the spec does not
say which characters are whitespace). -/
def isSpace (ch : Char) : Bool :=
  ch == ' ' || ch == '\t' || ch == '\n' || ch == '\r'

/-- The text with leading and trailing whitespace removed (R236). -/
def trim (text : List Char) : List Char :=
  ((text.dropWhile isSpace).reverse.dropWhile isSpace).reverse

/-- The text split at every `sep`: k of them give k + 1 parts (R236). -/
def splitAll (sep : Char) : List Char → List (List Char)
  | [] => [[]]
  | ch :: rest =>
    match splitAll sep rest with
    | [] => [[ch]]
    | part :: parts => if ch == sep then [] :: part :: parts else (ch :: part) :: parts

/-- The value of a decimal digit '0' to '9'. -/
def digitValue (ch : Char) : Option Nat :=
  if 48 ≤ ch.toNat && ch.toNat ≤ 57 then some (ch.toNat - 48) else none

/-- The number that decimal digits denote, after the digits already read; `none` at any other character. -/
def readDigits : Nat → List Char → Option Nat
  | acc, [] => some acc
  | acc, ch :: rest =>
    match digitValue ch with
    | some d => readDigits (10 * acc + d) rest
    | none => none

/-- One or more decimal digits. -/
def readNat : List Char → Option Nat
  | [] => none
  | ch :: rest => readDigits 0 (ch :: rest)

/-- An optional '-', then one or more decimal digits (R236). -/
def readInt : List Char → Option Int
  | '-' :: rest => (readNat rest).map fun n => -(n : Int)
  | text => (readNat text).map fun n => (n : Int)

/-- One element of the text: an integer that is a Word (R236). -/
def readElement (part : List Char) : Option Int :=
  match readInt part with
  | some v => if isWord v then some v else none
  | none => none

/-- The elements in order; one that fails to parse fails the load (R236). -/
def readElements : List (List Char) → Option (List Int)
  | [] => some []
  | part :: parts =>
    match readElement part, readElements parts with
    | some v, some vs => some (v :: vs)
    | _, _ => none

/-- `load(text)` (R236); `none` is the load error. Cell i of the result is element i of the text. -/
def load (text : List Char) : Option (List Int) := readElements (splitAll ',' (trim text))

end Sys2Proof.Machine
end

