-- ==== Sys2Proof/Machine/Requests.lean ====
section
/-! DEFINITION. The host interface: the seven operations of spec/46_machine_and_pipe.md R190, each one step, performed between
calls in the order the caller asked for them. -/

namespace Sys2Proof.Machine

/-- The unit the caller holds under a handle. -/
def unitAt (s : State) (h : Nat) : Option ExecUnit := (s.units[h]?).join

/-- The caller is given a reply. -/
def answer (s : State) (r : Reply) : State := { s with replies := s.replies ++ [r] }

/-- The caller is given a new unit, under the next handle. -/
def giveUnit (s : State) (u : ExecUnit) : State :=
  answer { s with units := s.units ++ [some u] } (.made s.units.length)

/-- `load(text)` (R178). -/
def serveLoad (text : List Char) (s : State) : Host.Outcome State Fault Refusal :=
  match load text with
  | some image => .next (answer s (.loaded image))
  | none => .next (answer s .loadError)

/-- `Machine(image)` (R170). -/
def serveConstruct (image : List Int) (s : State) : Host.Outcome State Fault Refusal :=
  if image.all isWord then
    if image.length ≤ Config.maxMemLen then .next (giveUnit s (.machine (MachineState.new image)))
    else .refused .imageTooLong
  else .refused .notWords

/-- `clone()` of a machine: equal memory, `pc`, `run_state` and `fault` (R177). -/
def serveClone (h : Nat) (s : State) : Host.Outcome State Fault Refusal :=
  match unitAt s h with
  | some (.machine m) => .next (giveUnit s (.machine m))
  | some (.pipe _ _) => .refused .cloneOfPipe
  | none => .refused .noSuchUnit

/-- `Pipe(A, B)`: A first, B second, members in any state; ownership of both passes to the pipe (R179, R180). -/
def serveCompose (a b : Nat) (s : State) : Host.Outcome State Fault Refusal :=
  if a = b then .refused .composedWithItself
  else
    match unitAt s a, unitAt s b with
    | some ua, some ub =>
      .next (giveUnit { s with units := (s.units.set a none).set b none } (.pipe ua ub))
    | _, _ => .refused .noSuchUnit

/-- `execute(input)` begins on a unit (R173, R181). -/
def serveExecute (h : Nat) (input : List Int) (s : State) : Host.Outcome State Fault Refusal :=
  match unitAt s h with
  | none => .refused .noSuchUnit
  | some u =>
    if input.all isWord then
      .next { s with units := s.units.set h none, call := some (openCall h u [] input) }
    else .refused .notWords

/-- `finished()` of a unit (R172, R182). -/
def serveFinished (h : Nat) (s : State) : Host.Outcome State Fault Refusal :=
  match unitAt s h with
  | some u => .next (answer s (.finishedIs h (unitFinished u)))
  | none => .refused .noSuchUnit

/-- `snapshot()` of a machine: a copy of `mem`, all cells in order, in any state (R175). -/
def serveSnapshot (h : Nat) (s : State) : Host.Outcome State Fault Refusal :=
  match unitAt s h with
  | some (.machine m) => .next (answer s (.snapshotIs h m.mem))
  | some (.pipe _ _) => .refused .snapshotOfPipe
  | none => .refused .noSuchUnit

/-- One operation of the caller. -/
def perform (q : Request) (s : State) : Host.Outcome State Fault Refusal :=
  match q with
  | .load text => serveLoad text s
  | .construct image => serveConstruct image s
  | .clone h => serveClone h s
  | .compose a b => serveCompose a b s
  | .execute h input => serveExecute h input s
  | .finished h => serveFinished h s
  | .snapshot h => serveSnapshot h s

/-- Between calls: the caller's next operation; with none asked for nothing happens to any machine
(spec/60_exceptions.md R215, R222). -/
def serve (s : State) : Host.Outcome State Fault Refusal :=
  match s.requests with
  | [] => .next s
  | q :: rest => perform q { s with requests := rest }

end Sys2Proof.Machine
end

