-- ==== Sys2Proof/Machine/Placing.lean ====
section
/-! DEFINITION. How the host's tools place an instruction where the step fetches (log entry 5). The spec loads programs through
`load`, `Machine(image)` and `execute`; this stands for all three. -/

namespace Sys2Proof.Machine

/-- Cell k of an instruction whose bits are `w`, the first cell lowest. -/
def cellOfBits (w k : Nat) : Int := wordOfBits (w / 2 ^ (Config.wordBits * k))

/-- Memory with the cells written from index `i` on, made long enough with cells of 0 where it is too short. -/
def placeCells (mem : List Int) (i : Nat) (cells : List Int) : List Int :=
  (mem ++ List.replicate (i - mem.length) 0).take i ++ cells ++ mem.drop (i + cells.length)

/-- The call a placed instruction runs in: the one in progress; else one that is opened, with no input, on unit 0 (on a new
machine with an empty memory if there is no unit 0). -/
def callForPlacing (s : State) : Call :=
  match s.call with
  | some c => c
  | none => openCall 0 ((unitAt s 0).getD (.machine (MachineState.new []))) [] []

/-- `s` with the instruction whose bits are `w` in the memory of the machine whose turn it is, at its `pc`, and that machine in a call,
Running and not failed. The bits above those the table gives are operand cells of zeros, up to the longest instruction. -/
def placeInstr (s : State) (w : Nat) : State :=
  let c := callForPlacing s
  let cells := (List.range Config.maxLength).map (cellOfBits w)
  { s with
    units := s.units.set c.handle none
    call := some { c with
      machine := { mem := placeCells c.machine.mem c.machine.pc cells, pc := c.machine.pc, runState := .running, fault := none }
      ended := none } }

end Sys2Proof.Machine
end

