-- ==== Sys2Proof/Machine/Step.lean ====
section
/-! DEFINITION. One step of the whole core, and the placing of an instruction where the step fetches. -/

namespace Sys2Proof.Machine

/-- One step: in a call, of that call; between calls, the caller's next operation (spec/46_machine_and_pipe.md R190). -/
def step (s : State) : Host.Outcome State Fault Refusal :=
  match s.call with
  | none => serve s
  | some c => stepCall s c

/-- `s` with the instruction whose bits are `w` placed so that the very next step runs exactly it (log entry 5). The table gives its
rows no bits, so `w` is taken whole whatever `nbits` is; cells beyond it are 0. -/
def State.withFetchWord (s : State) (_nbits w : Nat) : State := placeInstr s w

end Sys2Proof.Machine
end

