-- ==== Sys2Proof/Machine/Assembly.lean ====
section
/-! DEFINITION. The two textual forms of a program: the machine-code listing (spec/30_encoding.md R74) and the spec's assembler
syntax for examples, with its inverse (R76, R78). No step depends on this file. -/

namespace Sys2Proof.Machine

/-- One line of assembly (R76): an instruction with the raw values of its operands, or a literal cell. -/
inductive AsmLine where
  | instr (i : Instr) (raws : List Int)
  | data (v : Int)
deriving DecidableEq, Repr

/-- The cells of a line: the instruction cell, then the raw values in order (R76). -/
def lineCells : AsmLine → List Int
  | .instr i raws => encode i :: raws
  | .data v => [v]

/-- The image of a program (R76). -/
def assemble (lines : List AsmLine) : List Int := lines.flatMap lineCells

/-- The mnemonics of R64. -/
def mnemonic : Instr → List Char
  | .add _ _ _ => ['A', 'D', 'D']
  | .mul _ _ _ => ['M', 'U', 'L']
  | .inp _ => ['I', 'N']
  | .out _ => ['O', 'U', 'T']
  | .jt _ _ => ['J', 'T']
  | .jf _ _ => ['J', 'F']
  | .lt _ _ _ => ['L', 'T']
  | .eq _ _ _ => ['E', 'Q']
  | .hlt => ['H', 'L', 'T']

/-- The operation with a mnemonic and the modes of its operands, if the operand count is the operation's. -/
def instrNamed (name : List Char) (modes : List Mode) : Option Instr :=
  match name, modes with
  | ['A', 'D', 'D'], [a, b, c] => some (.add a b c)
  | ['M', 'U', 'L'], [a, b, c] => some (.mul a b c)
  | ['I', 'N'], [a] => some (.inp a)
  | ['O', 'U', 'T'], [a] => some (.out a)
  | ['J', 'T'], [a, b] => some (.jt a b)
  | ['J', 'F'], [a, b] => some (.jf a b)
  | ['L', 'T'], [a, b, c] => some (.lt a b c)
  | ['E', 'Q'], [a, b, c] => some (.eq a b c)
  | ['H', 'L', 'T'], [] => some .hlt
  | _, _ => none

/-- The decimal digits of a number before those in `acc`; the fuel is more than the number has digits. -/
def showDigits : Nat → Nat → List Char → List Char
  | 0, _, acc => acc
  | fuel + 1, n, acc =>
    let acc' := Char.ofNat (48 + n % 10) :: acc
    if n < 10 then acc' else showDigits fuel (n / 10) acc'

/-- A number in base 10. -/
def showNat (n : Nat) : List Char := showDigits (n + 1) n []

/-- A signed integer in base 10. -/
def showInt (v : Int) : List Char := if v < 0 then '-' :: showNat v.natAbs else showNat v.natAbs

/-- Texts joined by commas. -/
def joinCommas : List (List Char) → List Char
  | [] => []
  | [part] => part
  | part :: parts => part ++ ',' :: joinCommas parts

/-- The machine-code listing of an image: comma-separated base-10 signed integers on one line (R74). -/
def listing (image : List Int) : List Char := joinCommas (image.map showInt)

/-- An operand: `[n]` is Reference, `#n` is Immediate (R76). -/
def showOperand (mode : Mode) (raw : Int) : List Char :=
  match mode with
  | .reference => '[' :: showInt raw ++ [']']
  | .immediate => '#' :: showInt raw

/-- A line in the syntax of R76; an instruction's unused digits are not printed (R78). The spaces are log entry 7. -/
def showLine : AsmLine → List Char
  | .instr i raws =>
    match i.modes with
    | [] => mnemonic i
    | modes => mnemonic i ++ ' ' :: joinCommas (List.zipWith showOperand modes raws)
  | .data v => ['D', 'A', 'T', 'A', ' '] ++ showInt v

/-- Disassembly of an instruction cell with the operand cells after it; total on decodable cells (R78).
R78 gives an `n` per used mode digit and says nothing of a cell that fewer operand cells follow than its operation needs: the mnemonic
is then printed with the operands that are there, and cells beyond the operation's count are not printed (DESIGN CHOICE, log entry
15). -/
def disassemble (cell : Int) (raws : List Int) : Option (List Char) :=
  match decode cell with
  | .ok i => some (showLine (.instr i (raws.take i.count)))
  | .error _ => none

/-- An operand of R76, spaces removed. R76 says of `n` that it is a signed decimal integer: it is read as an element of program text,
so a leading `+` and a value that is no Word are refused (DESIGN CHOICE, log entry 7: D21 settles this for the loader only). -/
def readOperandText : List Char → Option (Mode × Int)
  | '#' :: rest => (readElement rest).map fun v => (.immediate, v)
  | '[' :: rest =>
    if rest.getLast? = some ']' then (readElement rest.dropLast).map fun v => (.reference, v) else none
  | _ => none

/-- Operands in order; one that does not parse fails the line. -/
def readOperands : List (List Char) → Option (List (Mode × Int))
  | [] => some []
  | part :: parts =>
    match readOperandText part, readOperands parts with
    | some o, some os => some (o :: os)
    | _, _ => none

/-- The statement of a line: `DATA n`, or a mnemonic and its operands separated by commas (R76), spaces removed. The `n` of
`DATA n` is read as that of an operand, and `DATA n` is one cell: the repeat in parentheses that program P6 of
spec/95_test_vectors.md writes after it is not defined by R76 and is refused (DESIGN CHOICE, log entry 7). -/
def readStatement (text : List Char) : Option AsmLine :=
  let name := text.takeWhile fun ch => 65 ≤ ch.toNat && ch.toNat ≤ 90
  let rest := text.dropWhile fun ch => 65 ≤ ch.toNat && ch.toNat ≤ 90
  if name = ['D', 'A', 'T', 'A'] then (readElement rest).map .data
  else
    match readOperands (if rest = [] then [] else splitAll ',' rest) with
    | none => none
    | some os => (instrNamed name (os.map Prod.fst)).map fun i => .instr i (os.map Prod.snd)

/-- A line of R76 whose first cell is `index`: a comment starts with `;`, the index may stand before the statement as `i:`, and
spaces count for nothing (DESIGN CHOICE, log entry 7). The answer is the line's cells; none for a line that is empty. -/
def readLine (index : Nat) (line : List Char) : Option (List Int) :=
  let text := (line.takeWhile fun ch => ch != ';').filter fun ch => !isSpace ch
  match splitAll ':' text with
  | [[]] => some []
  | [stmt] => (readStatement stmt).map lineCells
  | [label, stmt] =>
    if readNat label = some index then (readStatement stmt).map lineCells else none
  | _ => none

/-- A program text, line by line, from cell `index` on. -/
def readLines : Nat → List (List Char) → Option (List Int)
  | _, [] => some []
  | index, line :: lines =>
    match readLine index line with
    | none => none
    | some cells => (readLines (index + cells.length) lines).map fun rest => cells ++ rest

/-- The assembler of R76, from text: one statement a line. -/
def assembleText (text : List Char) : Option (List Int) := readLines 0 (splitAll '\n' text)

end Sys2Proof.Machine
end

