-- ==== Sys2Proof/Machine/Execute.lean ====
section
/-! DEFINITION. The call as ONE operation: `Execute` of spec/42_execution_engine.md R128 for a machine and of
spec/46_machine_and_pipe.md R181 for a pipe, as the spec's pseudocode has them, under fuel (a call may never end, R132). The step
of Sys2Proof/Machine/Step.lean does the same one cycle at a time. -/

namespace Sys2Proof.Machine

/-- The state in which a call runs and nothing else exists. -/
def stateOfCall (c : Call) : State := { units := [], call := some c, requests := [], replies := [] }

/-- What an operation does to the call in progress: `exec`'s own answer, read off the call. -/
def callEffect (i : Instr) (c : Call) : Call :=
  match exec i (stateOfCall c) with
  | .next t => t.call.getD c
  | .fault _ | .refused _ => c

/-- `Cycle()` (spec/42_execution_engine.md R119): fetch, decode, and the effect of the operation. -/
def cycle (c : Call) : Call :=
  match fetchInstr c.machine with
  | .ok i => callEffect i c
  | .error f => raise f c

/-- One action of the engine in a call that has not ended: a cycle, or what R127 says of a machine that may not run one. -/
def engine (c : Call) : Call := if runnable c.machine then cycle c else enterCall c

/-- `Execute(M, input)`, from a call that has begun (spec/42_execution_engine.md R128): the result and the machine after. -/
def runCall : Nat → Call → Option (Result × MachineState)
  | 0, _ => none
  | fuel + 1, c =>
    match c.ended with
    | some r => some (r, c.machine)
    | none => runCall fuel (engine c)

/-- `Execute(U, input)` (spec/42_execution_engine.md R128, spec/46_machine_and_pipe.md R181): the result and the unit after. -/
def execute (fuel : Nat) : ExecUnit → List Int → Option (Result × ExecUnit)
  | .machine m, input =>
    match runCall fuel (openCall 0 (.machine m) [] input) with
    | some (r, m') => some (r, .machine m')
    | none => none
  | .pipe a b, input =>
    match execute fuel a input with
    | none => none
    | some (.err f, a') => some (.err f, .pipe a' b)
    | some (.refused q, a') => some (.refused q, .pipe a' b)
    | some (.ok mid, a') =>
      match execute fuel b mid with
      | none => none
      | some (r, b') => some (r, .pipe a' b')

end Sys2Proof.Machine
end

