-- ==== Sys2Proof/Safety.lean ====
section
/-! DEFINITION. The terms claims are stated in: what an instruction's operands are, which failures it can raise, and the
invariant of the whole state. -/

namespace Sys2Proof.Machine

/-! ## Operands, in the words of spec/30_encoding.md R63 and spec/41_parameter_resolver.md R105 -/

/-- The raw value of operand k is `raw`: the content of the k-th cell after the instruction cell. -/
def OperandAt (m : MachineState) (k : Nat) (raw : Int) : Prop := m.mem[m.pc + k]? = some raw

/-- Source operand k has the value `v`: Immediate, the raw value; Reference, the content of the cell the raw value names. -/
def SourceAt (m : MachineState) (mode : Mode) (k : Nat) (v : Int) : Prop :=
  match mode with
  | .immediate => OperandAt m k v
  | .reference => ∃ raw, OperandAt m k raw ∧ 0 ≤ raw ∧ m.mem[raw.toNat]? = some v

/-- Source operand k cannot be read, and why (spec/60_exceptions.md R205, steps 4.k.a to 4.k.c). -/
def SourceFails (m : MachineState) (mode : Mode) (k : Nat) (f : Fault) : Prop :=
  (m.mem.length ≤ m.pc + k ∧ f = .unexpectedEndOfFile) ∨
  (mode = .reference ∧ ∃ raw, OperandAt m k raw ∧ raw < 0 ∧ f = .invalidAddress) ∨
  (mode = .reference ∧ ∃ raw, OperandAt m k raw ∧ (m.mem.length : Int) ≤ raw ∧ f = .outOfBounds)

/-- The mode of operand k where operand k is a source (spec/30_encoding.md R65). -/
def sourceMode : Instr → Nat → Option Mode
  | .add a _ _, 1 | .mul a _ _, 1 | .lt a _ _, 1 | .eq a _ _, 1 | .jt a _, 1 | .jf a _, 1 | .out a, 1 => some a
  | .add _ b _, 2 | .mul _ b _, 2 | .lt _ b _, 2 | .eq _ b _, 2 | .jt _ b, 2 | .jf _ b, 2 => some b
  | _, _ => none

/-- The number of the destination operand, for the operations that have one (spec/30_encoding.md R65). -/
def destinationOperand : Instr → Option Nat
  | .add _ _ _ | .mul _ _ _ | .lt _ _ _ | .eq _ _ _ => some 3
  | .inp _ => some 1
  | .out _ | .jt _ _ | .jf _ _ | .hlt => none

/-- Operand k is the first whose fetch or read fails in the cycle of `i`, and why (spec/60_exceptions.md R205, step 4). -/
def FirstOperandFailure (m : MachineState) (i : Instr) (k : Nat) (f : Fault) : Prop :=
  (∀ j mode, 1 ≤ j → j < k → sourceMode i j = some mode → ∃ v, SourceAt m mode j v) ∧
  ((∃ mode, sourceMode i k = some mode ∧ SourceFails m mode k f) ∨
   (destinationOperand i = some k ∧ m.mem.length ≤ m.pc + k ∧ f = .unexpectedEndOfFile))

/-- The failures an instruction can raise once it is decoded: the table of spec/60_exceptions.md R209 below its first three
rows. -/
def raisable : Instr → List Fault
  | .add _ _ _ | .mul _ _ _ =>
    [.unexpectedEndOfFile, .invalidAddress, .outOfBounds, .arithmeticOverflow, .immediateModeOutput]
  | .lt _ _ _ | .eq _ _ _ => [.unexpectedEndOfFile, .invalidAddress, .outOfBounds, .immediateModeOutput]
  | .inp _ => [.unexpectedEndOfFile, .immediateModeOutput, .invalidAddress, .outOfBounds]
  | .out _ => [.unexpectedEndOfFile, .invalidAddress, .outOfBounds]
  | .jt _ _ | .jf _ _ => [.unexpectedEndOfFile, .invalidAddress, .outOfBounds]
  | .hlt => []

/-! ## Runs -/

/-- `n` steps, the state after them if none of them was a fault or a refusal. -/
def runSteps : Nat → State → Option State
  | 0, s => some s
  | n + 1, s =>
    match step s with
    | .next t => runSteps n t
    | .fault _ | .refused _ => none

/-! ## The invariant -/

/-- The form of a memory: every cell a Word, at most `2^63 - 1` cells (spec/00_scope.md R6, R7). Element i is cell i, so each
address stands once and in rising order by itself. -/
def Memory.wf (mem : List Int) : Bool := mem.all isWord && decide (mem.length ≤ Config.maxMemLen)

/-- Of every machine: its memory's form; `pc` is an Index (spec/10_state.md R22); a failed machine's run state is still Running
(spec/60_exceptions.md R210). -/
def machineInv (m : MachineState) : Bool :=
  Memory.wf m.mem && decide (m.pc ≤ Config.maxIndex) && (decide (m.fault = none) || decide (m.runState = .running))

/-- Of a machine whose call is not running: it is Running only before its first call, when `pc` is 0, or after a failure
(spec/10_state.md R26). -/
def restInv (m : MachineState) : Bool :=
  machineInv m && (decide (m.runState ≠ .running) || decide (m.fault ≠ none) || decide (m.pc = 0))

/-- The machines of a unit, in chain order (spec/46_machine_and_pipe.md R185). -/
def unitMachines : ExecUnit → List MachineState
  | .machine m => [m]
  | .pipe a b => unitMachines a ++ unitMachines b

/-- The unit around a member, from the pipes around it, innermost first (spec/46_machine_and_pipe.md R179). -/
def plug (u : ExecUnit) : List Frame → ExecUnit
  | [] => u
  | .inFirst b :: ctx => plug (.pipe u b) ctx
  | .inSecond a :: ctx => plug (.pipe a u) ctx

/-- The machines of the unit that stand before the running one, in chain order, from the pipes around it, innermost first
(spec/46_machine_and_pipe.md R179, R185). -/
def chainBefore : List Frame → List MachineState
  | [] => []
  | .inFirst _ :: ctx => chainBefore ctx
  | .inSecond a :: ctx => chainBefore ctx ++ unitMachines a

/-- Of every unit at rest. -/
def unitInv (u : ExecUnit) : Bool := (unitMachines u).all restInv

/-- Of the member of a pipe that is not running. -/
def frameInv : Frame → Bool
  | .inFirst u => unitInv u
  | .inSecond u => unitInv u

/-- How a machine's call ends, and its state then (spec/42_execution_engine.md R129). -/
def resultInv (m : MachineState) : Result → Bool
  | .ok outputs => outputs.all isWord && decide (m.fault = none) && decide (m.runState ≠ .running)
  | .err f => decide (m.fault = some f)
  | .refused .executeOnFinished => decide (m.fault = none) && decide (m.runState = .finished)

/-- Of the call in progress. -/
def callInv (c : Call) : Bool :=
  machineInv c.machine && c.inq.all isWord && c.out.all isWord && c.ctx.all frameInv &&
  match c.ended with
  | none => true
  | some r => resultInv c.machine r

/-- The invariant of the whole state. The caller's requests are free. -/
def State.inv (s : State) : Bool :=
  (s.units.all fun u => match u with
    | some u => unitInv u
    | none => true) &&
  match s.call with
  | none => true
  | some c => callInv c

end Sys2Proof.Machine
end

