-- ==== Sys2Proof/Certificates/Slice0/Obligations.lean ====
section
/-! DEFINITION. The statements for the provers. Each docstring names the rule of spec/ that it formalises, and, where a clause
rests on one of the spec's own decisions (D1 to D28 of spec/92_eei_decisions.md), the decision: log entry 12. -/

open Sys2Proof Sys2Proof.Machine

namespace Sys2Proof.Machine

/-! ## What several statements share -/

/-- The digits of the list, most significant first, as a number. -/
def digitsValue (ds : List Nat) : Nat := ds.foldl (fun acc d => 10 * acc + d) 0

/-- The running machine of the call may run a cycle (spec/42_execution_engine.md R119). -/
def InCycle (s : State) (c : Call) : Prop :=
  s.call = some c ∧ c.ended = none ∧ c.machine.runState = .running ∧ c.machine.fault = none

/-- The caller's next operation is `execute(input)` on the unit `u`, held under `h`, and `rest` comes after it. -/
def AsksExecute (s : State) (h : Nat) (input : List Int) (rest : List Request) (u : ExecUnit) : Prop :=
  s.call = none ∧ s.requests = .execute h input :: rest ∧ s.units[h]? = some (some u) ∧ input.all isWord = true

/-- The rule of a three-operand instruction whose result is `r` of its sources and is a Word: every failure of its operands, the
write and its three failures, in the order of spec/60_exceptions.md R205. -/
def StoresResult (op : Mode → Mode → Mode → Instr) (r : Int → Int → Int) : Prop :=
  ∀ (s : State) (c : Call) (m1 m2 m3 : Mode), s.call = some c →
    (∀ k f, FirstOperandFailure c.machine (op m1 m2 m3) k f →
      exec (op m1 m2 m3) s = .next { s with call := some (raise f c) }) ∧
    (∀ a b raw, SourceAt c.machine m1 1 a → SourceAt c.machine m2 2 b → OperandAt c.machine 3 raw → isWord (r a b) = true →
      (m3 = .immediate → exec (op m1 m2 m3) s = .next { s with call := some (raise .immediateModeOutput c) }) ∧
      (m3 = .reference → raw < 0 → exec (op m1 m2 m3) s = .next { s with call := some (raise .invalidAddress c) }) ∧
      (m3 = .reference → (c.machine.mem.length : Int) ≤ raw →
        exec (op m1 m2 m3) s = .next { s with call := some (raise .outOfBounds c) }) ∧
      (m3 = .reference → 0 ≤ raw → raw < (c.machine.mem.length : Int) →
        exec (op m1 m2 m3) s = .next { s with call := some { c with machine := { c.machine with
          mem := c.machine.mem.set raw.toNat (r a b)
          pc := c.machine.pc + 4 } } }))

/-- What an instruction with a range check adds: where its exact result is no Word, `ArithmeticOverflow`, before the write is
attempted (spec/43_arithmetic_compare.md R144). -/
def FailsOutsideWords (op : Mode → Mode → Mode → Instr) (r : Int → Int → Int) : Prop :=
  ∀ (s : State) (c : Call) (m1 m2 m3 : Mode) (a b raw : Int), s.call = some c →
    SourceAt c.machine m1 1 a → SourceAt c.machine m2 2 b → OperandAt c.machine 3 raw → isWord (r a b) = false →
    exec (op m1 m2 m3) s = .next { s with call := some (raise .arithmeticOverflow c) }

/-- The rule of a conditional jump that is taken when `taken` holds of operand1 (spec/45_control_transfer.md R160 to R162). -/
def JumpsWhen (op : Mode → Mode → Instr) (taken : Int → Prop) : Prop :=
  ∀ (s : State) (c : Call) (m1 m2 : Mode), s.call = some c →
    (∀ k f, FirstOperandFailure c.machine (op m1 m2) k f →
      exec (op m1 m2) s = .next { s with call := some (raise f c) }) ∧
    (∀ v t, SourceAt c.machine m1 1 v → SourceAt c.machine m2 2 t →
      (taken v → 0 ≤ t →
        exec (op m1 m2) s = .next { s with call := some { c with machine := { c.machine with pc := t.toNat } } }) ∧
      (taken v → t < 0 → exec (op m1 m2) s = .next { s with call := some (raise .invalidAddress c) }) ∧
      (¬ taken v →
        exec (op m1 m2) s = .next { s with call := some { c with machine := { c.machine with pc := c.machine.pc + 3 } } }))

/-- `exec i` takes the call `c` in `s` to the call `c'`. -/
def TakesCallTo (i : Instr) (s : State) (c c' : Call) : Prop :=
  s.call = some c ∧ ∃ t, exec i s = .next t ∧ t.call = some c'

end Sys2Proof.Machine

/-! ## Decoder and encoder -/

/-- spec/40_decoder.md R83, R84, R88: the decoder answers `i` exactly on the cells that are not negative, whose two low digits are
`i`'s opcode and whose digit k+1 is the digit of operand k's mode, for every operand `i` has; no other digit counts (D6, D7, log entry 12). -/
def Obligations.DecoderReadsExactlyItsDigits : Prop :=
  ∀ (v : Int) (i : Instr), decode v = .ok i ↔
    0 ≤ v ∧ v.toNat % 100 = i.opcode ∧ ∀ k mode, i.modes[k]? = some mode → v.toNat / 10 ^ (k + 2) % 10 = mode.digit

/-- spec/40_decoder.md R84 to R87: `InvalidOpCode` exactly where the cell is negative or its two low digits are no opcode,
`InvalidParameterMode` exactly where they are an opcode and the digit of one of its operands is 2 to 9 (D6 to D8, log entry
12). -/
def Obligations.DecoderFailsExactlyWhereTabulated : Prop :=
  ∀ v : Int,
    (decode v = .error .invalidOpCode ↔ v < 0 ∨ v.toNat % 100 ∉ [1, 2, 3, 4, 5, 6, 7, 8, 99]) ∧
    (decode v = .error .invalidParameterMode ↔
      0 ≤ v ∧ ∃ i : Instr, v.toNat % 100 = i.opcode ∧ ∃ k < i.count, 2 ≤ v.toNat / 10 ^ (k + 2) % 10)

/-- spec/40_decoder.md R90(d), R90(c): decoding the encoded instruction gives it back, for EVERY instruction with every operand in
every mode, and whatever digits stand above the ten-thousands digit (D7, log entry 12). -/
def Obligations.DecodeUndoesEncode : Prop :=
  ∀ (i : Instr) (rest : Nat), decode (encode i + 100000 * (rest : Int)) = .ok i

/-- spec/30_encoding.md R66: the cells the encoder gives for well-formed instructions are the canonical values of the table (28
values; the sentence after the table says 27: log entry 11), and those it gives for ill-formed ones are the 17 that decode and fail at the write. -/
def Obligations.CanonicalCellsAreTheTabulated : Prop :=
  ∀ v : Int,
    ((∃ i : Instr, i.wf = true ∧ encode i = v) ↔
      v ∈ [1, 101, 1001, 1101, 2, 102, 1002, 1102, 3, 4, 104, 5, 105, 1005, 1105, 6, 106, 1006, 1106,
        7, 107, 1007, 1107, 8, 108, 1008, 1108, 99]) ∧
    ((∃ i : Instr, i.wf = false ∧ encode i = v) ↔
      v ∈ [10001, 10101, 11001, 11101, 10002, 10102, 11002, 11102, 10007, 10107, 11007, 11107,
        10008, 10108, 11008, 11108, 103])

/-- spec/40_decoder.md R91: one cell of every operation, written out from the table, and two that are no instruction. -/
def Obligations.SampleCellsDecodeAsTabulated : Prop :=
  decode 1 = .ok (.add .reference .reference .reference) ∧
  decode 1002 = .ok (.mul .reference .immediate .reference) ∧
  decode 3 = .ok (.inp .reference) ∧
  decode 104 = .ok (.out .immediate) ∧
  decode 1105 = .ok (.jt .immediate .immediate) ∧
  decode 1006 = .ok (.jf .reference .immediate) ∧
  decode 1107 = .ok (.lt .immediate .immediate .reference) ∧
  decode 108 = .ok (.eq .immediate .reference .reference) ∧
  decode 99 = .ok .hlt ∧
  decode 5000 = .error .invalidOpCode ∧
  decode 204 = .error .invalidParameterMode

/-! ## The step and the instructions -/

/-- spec/42_execution_engine.md R119: when a cycle may run and the cell at `pc` decodes to `i`, the step IS `exec i`, with nothing
around it. -/
def Obligations.StepRunsTheDecodedInstruction : Prop :=
  ∀ (s : State) (c : Call) (v : Int) (i : Instr), InCycle s c →
    c.machine.mem[c.machine.pc]? = some v → decode v = .ok i → step s = exec i s

/-- spec/60_exceptions.md R205 steps 1 to 3: where there is no cell at `pc`, or the cell decodes to no instruction, the step takes
the failure entry (D6, D12, log entry 12). -/
def Obligations.StepRaisesFetchAndDecodeFailures : Prop :=
  ∀ (s : State) (c : Call), InCycle s c →
    (c.machine.mem.length ≤ c.machine.pc →
      step s = .next { s with call := some (raise .unexpectedEndOfFile c) }) ∧
    (∀ v, c.machine.mem[c.machine.pc]? = some v →
      (decode v = .error .invalidOpCode → step s = .next { s with call := some (raise .invalidOpCode c) }) ∧
      (decode v = .error .invalidParameterMode →
        step s = .next { s with call := some (raise .invalidParameterMode c) }))

/-- spec/43_arithmetic_compare.md R140. Its failures rest on D2, D4, D5, D9, D10, D12 (log entry 12). -/
def Obligations.AddStoresTheExactSumOrFails : Prop :=
  StoresResult .add (fun a b => a + b) ∧ FailsOutsideWords .add (fun a b => a + b)

/-- spec/43_arithmetic_compare.md R141. Its failures rest on D2, D4, D5, D9, D10, D12 (log entry 12). -/
def Obligations.MulStoresTheExactProductOrFails : Prop :=
  StoresResult .mul (fun a b => a * b) ∧ FailsOutsideWords .mul (fun a b => a * b)

/-- spec/43_arithmetic_compare.md R142; its result is always a Word. Its failures rest on D4, D5, D9, D10, D12 (log entry 12). -/
def Obligations.LtStoresTheSignedComparison : Prop :=
  StoresResult .lt (fun a b => if a < b then 1 else 0) ∧
  ∀ a b : Int, isWord (if a < b then 1 else 0) = true

/-- spec/43_arithmetic_compare.md R143; its result is always a Word. Its failures rest on D4, D5, D9, D10, D12 (log entry 12). -/
def Obligations.EqStoresTheEquality : Prop :=
  StoresResult .eq (fun a b => if a = b then 1 else 0) ∧
  ∀ a b : Int, isWord (if a = b then 1 else 0) = true

/-- spec/44_input_output.md R150: the operand cell is fetched first; an empty queue suspends whatever the destination; else the front
value is removed and stored, or the write fails (the order of the checks is D9 and D10, the first-in order D17: log entry 12). -/
def Obligations.InStoresTheFrontOrSuspends : Prop :=
  ∀ (s : State) (c : Call) (m1 : Mode), s.call = some c →
    (c.machine.mem.length ≤ c.machine.pc + 1 →
      exec (.inp m1) s = .next { s with call := some (raise .unexpectedEndOfFile c) }) ∧
    (∀ raw, OperandAt c.machine 1 raw →
      (c.inq = [] → exec (.inp m1) s = .next { s with call := some { c with
        machine := { c.machine with runState := .awaitingInput }
        inq := []
        out := []
        ended := some (.ok c.out) } }) ∧
      (∀ x rest, c.inq = x :: rest →
        (m1 = .immediate → exec (.inp m1) s = .next { s with call := some (raise .immediateModeOutput c) }) ∧
        (m1 = .reference → raw < 0 → exec (.inp m1) s = .next { s with call := some (raise .invalidAddress c) }) ∧
        (m1 = .reference → (c.machine.mem.length : Int) ≤ raw →
          exec (.inp m1) s = .next { s with call := some (raise .outOfBounds c) }) ∧
        (m1 = .reference → 0 ≤ raw → raw < (c.machine.mem.length : Int) →
          exec (.inp m1) s = .next { s with call := some { c with
            inq := rest
            machine := { c.machine with mem := c.machine.mem.set raw.toNat x, pc := c.machine.pc + 2 } } })))

/-- spec/44_input_output.md R151. Its failures rest on D4, D5, D9, D12 (log entry 12). -/
def Obligations.OutAppendsItsValue : Prop :=
  ∀ (s : State) (c : Call) (m1 : Mode), s.call = some c →
    (∀ k f, FirstOperandFailure c.machine (.out m1) k f → exec (.out m1) s = .next { s with call := some (raise f c) }) ∧
    (∀ v, SourceAt c.machine m1 1 v →
      exec (.out m1) s = .next { s with call := some { c with
        out := c.out ++ [v]
        machine := { c.machine with pc := c.machine.pc + 2 } } })

/-- spec/45_control_transfer.md R160, R162. The negative target and the read of operand2 where the jump is not taken are D11; the
operands' failures D4, D5, D9, D12 (log entry 12). -/
def Obligations.JtJumpsWhenOperandIsNotZero : Prop := JumpsWhen .jt (fun v => v ≠ 0)

/-- spec/45_control_transfer.md R161, R162. The negative target and the read of operand2 where the jump is not taken are D11; the
operands' failures D4, D5, D9, D12 (log entry 12). -/
def Obligations.JfJumpsWhenOperandIsZero : Prop := JumpsWhen .jf (fun v => v = 0)

/-- spec/45_control_transfer.md R163: HLT completes in every state of the machine: Finished, `pc` past it, the call ended with the
outputs so far (the value of `pc` is D16, log entry 12). -/
def Obligations.HltFinishesTheMachine : Prop :=
  ∀ (s : State) (c : Call), s.call = some c →
    exec .hlt s = .next { s with call := some { c with
      machine := { c.machine with runState := .finished, pc := c.machine.pc + 1 }
      inq := []
      out := []
      ended := some (.ok c.out) } }

/-! ## Failures -/

/-- spec/60_exceptions.md R210, R211: an operation that ends the call with a failure has changed nothing of the machine but the
latch; `inq` and `out` are discarded; the call's place in its unit is kept (D12, log entry 12). -/
def Obligations.FailureChangesOnlyTheLatch : Prop :=
  ∀ (i : Instr) (s : State) (c c' : Call) (f : Fault), TakesCallTo i s c c' → c.ended = none → c'.ended = some (.err f) →
    c' = { c with machine := { c.machine with fault := some f }, inq := [], out := [], ended := some (.err f) }

/-- spec/60_exceptions.md R209 (a derived table of the spec): an operation raises only the failures the table gives it. -/
def Obligations.OnlyTabulatedFailuresAreRaised : Prop :=
  ∀ (i : Instr) (s : State) (c c' : Call) (f : Fault), TakesCallTo i s c c' → c.ended = none → c'.ended = some (.err f) →
    f ∈ raisable i

/-- spec/60_exceptions.md R213: the whole call on a failed machine: three steps, no cycle, nothing changed but the reply
(D13, log entry 12; that it takes three steps is the model's, log entry 9). -/
def Obligations.CallOnFailedMachineReturnsItsFailure : Prop :=
  ∀ (s : State) (h : Nat) (input : List Int) (rest : List Request) (m : MachineState) (f : Fault),
    AsksExecute s h input rest (.machine m) → m.fault = some f →
    runSteps 3 s = some { s with requests := rest, replies := s.replies ++ [.executed h (.err f)] }

/-- spec/46_machine_and_pipe.md R176: the whole call on a Finished machine: refused, no cycle, nothing changed but the
reply (D14, log entry 12; that it takes three steps is the model's, log entry 9). -/
def Obligations.CallOnFinishedMachineIsRefused : Prop :=
  ∀ (s : State) (h : Nat) (input : List Int) (rest : List Request) (m : MachineState),
    AsksExecute s h input rest (.machine m) → m.fault = none → m.runState = .finished →
    runSteps 3 s = some { s with requests := rest, replies := s.replies ++ [.executed h (.refused .executeOnFinished)] }

/-! ## Frames -/

/-- spec/10_state.md R32, R35: an operation depends on the call in progress alone and changes it alone: no unit, no request, no
reply, not its handle, not the rest of its unit; with no call in progress it does nothing (the model's, log entry 10). -/
def Obligations.ExecDependsOnAndChangesTheCallOnly : Prop :=
  ∃ effect : Instr → Call → Call,
    (∀ (i : Instr) (s : State) (c : Call), s.call = some c →
      exec i s = .next { s with call := some (effect i c) } ∧
      (effect i c).handle = c.handle ∧ (effect i c).ctx = c.ctx) ∧
    (∀ (i : Instr) (s : State), s.call = none → exec i s = .next s)

/-- spec/10_state.md R29, R35, spec/41_parameter_resolver.md R104: for every operation, the length of memory is unchanged and so is
every cell but the one whose index the destination operand's cell holds; with no destination, every cell. -/
def Obligations.OnlyTheDestinationCellIsWritten : Prop :=
  ∀ (i : Instr) (s : State) (c c' : Call), TakesCallTo i s c c' →
    c'.machine.mem.length = c.machine.mem.length ∧
    ∀ j : Nat, (∀ k raw, destinationOperand i = some k → OperandAt c.machine k raw → (j : Int) ≠ raw) →
      c'.machine.mem[j]? = c.machine.mem[j]?

/-- spec/10_state.md R35 with R21, spec/60_exceptions.md R210: one cycle writes at most the destination's cell, and no cell at all if it fails or suspends;
`run_state` is written by IN (to Awaiting-Input) and HLT (to Finished) only, the latch by a failure only, `out` is appended to by
OUT only and `inq` loses its front by IN only (both are dropped when the call ends); a cycle that fails or suspends leaves `pc`;
nothing outside the machine and its call is written. The latch, and that a cycle that fails leaves `pc` and drops both lists, are D12
(log entry 12). -/
def Obligations.OneCycleWritesOnlyWhatIsListed : Prop :=
  ∀ (i : Instr) (s t : State) (c c' : Call), s.call = some c → c.ended = none → exec i s = .next t → t.call = some c' →
    t = { s with call := some c' } ∧ c'.handle = c.handle ∧ c'.ctx = c.ctx ∧
    (∀ j : Nat, c'.machine.mem[j]? ≠ c.machine.mem[j]? →
      ∃ k, destinationOperand i = some k ∧ OperandAt c.machine k (j : Int) ∧ c'.ended = none) ∧
    (c'.machine.runState ≠ c.machine.runState →
      ((∃ m1, i = .inp m1) ∧ c'.machine.runState = .awaitingInput) ∨ (i = .hlt ∧ c'.machine.runState = .finished)) ∧
    (c'.machine.fault ≠ c.machine.fault → ∃ f, c'.machine.fault = some f ∧ c'.ended = some (.err f)) ∧
    (c'.machine.pc ≠ c.machine.pc → c'.ended = none ∨ i = .hlt) ∧
    (c'.ended = none →
      (c'.out = c.out ∨ ∃ m1 v, i = .out m1 ∧ c'.out = c.out ++ [v]) ∧
      (c'.inq = c.inq ∨ ∃ m1 x, i = .inp m1 ∧ c.inq = x :: c'.inq))

/-- spec/10_state.md R35: ADD, MUL, LT, EQ, JT, JF that do not fail leave run state, latch, input queue and outputs as they were;
JT and JF leave all of memory. -/
def Obligations.ArithmeticAndJumpFrame : Prop :=
  ∀ (i : Instr) (s : State) (c c' : Call), TakesCallTo i s c c' → c.ended = none → c'.ended = none →
    destinationOperand i = some 3 ∨ (∃ m1 m2, i = .jt m1 m2 ∨ i = .jf m1 m2) →
    c'.machine.runState = c.machine.runState ∧ c'.machine.fault = c.machine.fault ∧ c'.inq = c.inq ∧ c'.out = c.out ∧
    (destinationOperand i = none → c'.machine.mem = c.machine.mem)

/-- spec/10_state.md R35: OUT that does not fail leaves memory, run state, latch and input queue as they were. -/
def Obligations.OutFrame : Prop :=
  ∀ (m1 : Mode) (s : State) (c c' : Call), TakesCallTo (.out m1) s c c' → c.ended = none → c'.ended = none →
    c'.machine.mem = c.machine.mem ∧ c'.machine.runState = c.machine.runState ∧ c'.machine.fault = c.machine.fault ∧
    c'.inq = c.inq

/-- spec/10_state.md R35, spec/42_execution_engine.md R120(b): IN that completes leaves run state, latch and outputs as they were and
takes only the queue's front; IN that suspends leaves memory, `pc` and latch. -/
def Obligations.InFrame : Prop :=
  ∀ (m1 : Mode) (s : State) (c c' : Call), TakesCallTo (.inp m1) s c c' → c.ended = none →
    (c'.ended = none → c'.machine.runState = c.machine.runState ∧ c'.machine.fault = c.machine.fault ∧ c'.out = c.out ∧
      ∃ x, c.inq = x :: c'.inq) ∧
    (∀ o, c'.ended = some (.ok o) → o = c.out ∧ c.inq = [] ∧ c'.machine.mem = c.machine.mem ∧
      c'.machine.pc = c.machine.pc ∧ c'.machine.fault = c.machine.fault)

/-- spec/45_control_transfer.md R163, spec/10_state.md R35: HLT leaves memory and latch as they were. -/
def Obligations.HltFrame : Prop :=
  ∀ (s : State) (c c' : Call), TakesCallTo .hlt s c c' →
    c'.machine.mem = c.machine.mem ∧ c'.machine.fault = c.machine.fault

/-- spec/10_state.md R26: the transitions of `run_state` in a step of the running machine's call: to Awaiting-Input only by IN with
an empty queue, to Finished only by HLT, back to Running only by the start of a call; a Finished or failed machine is not changed
at all. -/
def Obligations.RunStateTransitionsAreTheTabulated : Prop :=
  ∀ (s t : State) (c c' : Call), s.call = some c → c.ended = none → step s = .next t → t.call = some c' →
    (c'.machine.runState = c.machine.runState ∨
      (c.machine.runState = .running ∧ c'.machine.runState = .awaitingInput ∧ c.inq = [] ∧
        ∃ v m1, c.machine.mem[c.machine.pc]? = some v ∧ decode v = .ok (.inp m1)) ∨
      (c.machine.runState = .running ∧ c'.machine.runState = .finished ∧
        ∃ v, c.machine.mem[c.machine.pc]? = some v ∧ decode v = .ok .hlt) ∨
      (c.machine.runState = .awaitingInput ∧ c'.machine.runState = .running ∧ c'.machine.mem = c.machine.mem ∧
        c'.machine.pc = c.machine.pc)) ∧
    (c.machine.runState = .finished ∨ c.machine.fault ≠ none → c'.machine = c.machine)

/-- spec/20_memory.md R50: a store is seen by the very next fetch: an ADD that stores an instruction just after itself, and then
the step that runs that instruction. -/
def Obligations.StoreIsSeenByTheNextFetch : Prop :=
  ∀ (s : State) (c : Call) (v a b : Int) (m1 m2 : Mode) (j : Instr), InCycle s c →
    c.machine.mem[c.machine.pc]? = some v → decode v = .ok (.add m1 m2 .reference) →
    SourceAt c.machine m1 1 a → SourceAt c.machine m2 2 b → OperandAt c.machine 3 ((c.machine.pc + 4 : Nat) : Int) →
    c.machine.pc + 4 < c.machine.mem.length → isWord (a + b) = true → decode (a + b) = .ok j →
    ∃ t, step s = .next t ∧ step t = exec j t

/-! ## Calls and pipes -/

/-- spec/42_execution_engine.md R127, R128: `execute` on a machine that is neither failed nor Finished: the call begins with the
input as its queue and no outputs; an Awaiting-Input machine then becomes Running at the same `pc` with the same memory. -/
def Obligations.CallStartsOrResumesTheMachine : Prop :=
  ∀ (s : State) (h : Nat) (input : List Int) (rest : List Request) (m : MachineState),
    AsksExecute s h input rest (.machine m) → m.fault = none → m.runState ≠ .finished →
    (m.runState = .running → step s = .next { s with
      units := s.units.set h none
      requests := rest
      call := some { handle := h, ctx := [], machine := m, inq := input, out := [], ended := none } }) ∧
    (m.runState = .awaitingInput → runSteps 2 s = some { s with
      units := s.units.set h none
      requests := rest
      call := some
        { handle := h, ctx := [], machine := { m with runState := .running }, inq := input, out := [], ended := none } })

/-- spec/20_memory.md R55, spec/46_machine_and_pipe.md R183: when the first member of a pipe (a machine, or a pipe whose last
machine this is) has returned `Ok(mid)`, the first machine of the second member is called with `mid`, all of it, in order, and
nothing else; no machine changes. When there is no pipe around it in which it is first, the caller holds the unit again and gets
`Ok(mid)`. -/
def Obligations.PipeHandsOutputsToSecondMember : Prop :=
  ∀ (s : State) (c : Call) (before : List ExecUnit) (mid : List Int), s.call = some c → c.ended = some (.ok mid) →
    (∀ (second : ExecUnit) (ctx : List Frame), c.ctx = before.map .inSecond ++ .inFirst second :: ctx →
      ∃ c', step s = .next { s with call := some c' } ∧ c'.handle = c.handle ∧ c'.inq = mid ∧ c'.out = [] ∧ c'.ended = none ∧
        (unitMachines second).head? = some c'.machine ∧
        plug (.machine c'.machine) c'.ctx = plug (.machine c.machine) c.ctx) ∧
    (c.ctx = before.map .inSecond →
      step s = .next { s with
        units := s.units.set c.handle (some (plug (.machine c.machine) c.ctx))
        call := none
        replies := s.replies ++ [.executed c.handle (.ok mid)] })

/-- spec/46_machine_and_pipe.md R181, R184: the failure of a machine anywhere in a tree of pipes, or its refusal, is the result of
the whole call; no member after it is called, no member's work is undone (D23, log entry 12). -/
def Obligations.FailureEndsTheWholePipeCall : Prop :=
  ∀ (s : State) (c : Call) (r : Result), s.call = some c → c.ended = some r → (∀ outputs, r ≠ .ok outputs) →
    step s = .next { s with
      units := s.units.set c.handle (some (plug (.machine c.machine) c.ctx))
      call := none
      replies := s.replies ++ [.executed c.handle r] }

/-- spec/46_machine_and_pipe.md R182: `finished()` of a unit is true exactly when at least one of its machines is Finished, asking
changes nothing, and once true it stays true through every call. "If and only if at least one machine" is the spec's own inference
from the rule's `Finished(A) or Finished(B)`, marked [derived] there. -/
def Obligations.FinishedIffSomeMachineIsFinished : Prop :=
  (∀ (s : State) (h : Nat) (rest : List Request) (u : ExecUnit), s.call = none → s.requests = .finished h :: rest →
    s.units[h]? = some (some u) →
    ∃ b, step s = .next { s with requests := rest, replies := s.replies ++ [.finishedIs h b] } ∧
      (b = true ↔ ∃ m ∈ unitMachines u, m.runState = .finished)) ∧
  (∀ (fuel : Nat) (u u' : ExecUnit) (input : List Int) (r : Result), execute fuel u input = some (r, u') →
    unitFinished u = true → unitFinished u' = true)

/-- spec/46_machine_and_pipe.md R185: the two bracketings of three units behave identically (the spec's own inference
from R181 and R182). -/
def Obligations.PipesComposeAssociatively : Prop :=
  ∀ (fuel : Nat) (a b c : ExecUnit) (input : List Int),
    (∀ r a' b' c', execute fuel (.pipe (.pipe a b) c) input = some (r, .pipe (.pipe a' b') c') ↔
      execute fuel (.pipe a (.pipe b c)) input = some (r, .pipe a' (.pipe b' c'))) ∧
    (execute fuel (.pipe (.pipe a b) c) input = none ↔ execute fuel (.pipe a (.pipe b c)) input = none) ∧
    unitFinished (.pipe (.pipe a b) c) = unitFinished (.pipe a (.pipe b c))

/-- spec/42_execution_engine.md R128, spec/46_machine_and_pipe.md R181: stepping the core performs the spec's `Execute`: whenever
the pseudocode returns `r` and leaves the unit `u'`, some number of steps from the caller's request returns `r` to the caller, who
holds `u'` again, with nothing else changed. The steps of a call are the model's (log entry 9), and so is the fuel of `execute` (log
entry 14); what a failure leaves, the repeated failure and the refusal are D12 to D14 (log entry 12). -/
def Obligations.StepsComputeExecute : Prop :=
  ∀ (fuel : Nat) (u u' : ExecUnit) (input : List Int) (r : Result) (s : State) (h : Nat) (rest : List Request),
    AsksExecute s h input rest u → execute fuel u input = some (r, u') →
    ∃ n, runSteps n s = some { s with
      units := s.units.set h (some u')
      requests := rest
      replies := s.replies ++ [.executed h r] }

/-- spec/42_execution_engine.md R129: a call on a machine that ends does so by suspension, by halt, by failure, or by the refusal or
repeated failure before any cycle; never while the machine could execute another instruction. The latched failure is D12 (R210), the
repeated failure with nothing changed D13 (R213), the refusal with nothing changed D14 (R176): log entry 12; the fuel is the model's
(log entry 14). -/
def Obligations.CallEndsInOneOfTheListedWays : Prop :=
  ∀ (fuel : Nat) (m m' : MachineState) (input : List Int) (r : Result),
    execute fuel (.machine m) input = some (r, .machine m') →
    ((∃ outputs, r = .ok outputs ∧ m'.fault = none ∧ m'.runState = .awaitingInput) ∨
      (∃ outputs, r = .ok outputs ∧ m'.fault = none ∧ m'.runState = .finished) ∨
      (∃ f, r = .err f ∧ m'.fault = some f ∧ m.fault = none) ∨
      (∃ f, r = .err f ∧ m.fault = some f ∧ m' = m) ∨
      (r = .refused .executeOnFinished ∧ m.fault = none ∧ m.runState = .finished ∧ m' = m)) ∧
    runnable m' = false

/-- spec/46_machine_and_pipe.md R187: after a call on a unit returns `Ok`, each of its machines is Awaiting-Input or Finished, none
failed; and if one of them halted the unit is finished although others wait. -/
def Obligations.OkLeavesEveryMachineWaitingOrFinished : Prop :=
  ∀ (fuel : Nat) (u u' : ExecUnit) (input outputs : List Int), execute fuel u input = some (.ok outputs, u') →
    (∀ m ∈ unitMachines u', m.fault = none ∧ (m.runState = .awaitingInput ∨ m.runState = .finished)) ∧
    (∀ m ∈ unitMachines u', m.runState = .finished → unitFinished u' = true)

/-- spec/42_execution_engine.md R133: the fuel decides only whether the call is seen to end, never its result (a call
may never end, R132; the fuel is the model's, log entry 14). -/
def Obligations.ExecuteIsIndependentOfFuel : Prop :=
  ∀ (fuel more : Nat) (u u' : ExecUnit) (input : List Int) (r : Result),
    execute fuel u input = some (r, u') → fuel ≤ more → execute more u input = some (r, u')

/-- spec/42_execution_engine.md R125, the resumability law: a call that suspends and a second call that supplies more input are one
call with the whole input, failures included; and a resume with nothing changes nothing (the law is
the spec's own inference from R124 and R128; the resume with nothing is D26, log entry 12). -/
def Obligations.ResumedCallEqualsOneCall : Prop :=
  ∀ (n : Nat) (m m1 : MachineState) (xs o1 : List Int),
    execute n (.machine m) xs = some (.ok o1, .machine m1) → m1.runState = .awaitingInput →
    (∀ (k : Nat) (ys o2 : List Int) (u2 : ExecUnit), execute k (.machine m1) ys = some (.ok o2, u2) →
      ∃ l, execute l (.machine m) (xs ++ ys) = some (.ok (o1 ++ o2), u2)) ∧
    (∀ (k : Nat) (ys : List Int) (f : Fault) (u2 : ExecUnit), execute k (.machine m1) ys = some (.err f, u2) →
      ∃ l, execute l (.machine m) (xs ++ ys) = some (.err f, u2)) ∧
    (∃ l, execute l (.machine m1) [] = some (.ok [], .machine m1))

/-- spec/60_exceptions.md R222, spec/10_state.md R26: a Finished or failed machine is inert for ever: no call on its unit
changes it. -/
def Obligations.InertMachinesStayAsTheyAre : Prop :=
  ∀ (fuel : Nat) (u u' : ExecUnit) (input : List Int) (r : Result), execute fuel u input = some (r, u') →
    List.Forall₂ (fun m m' => m.runState = .finished ∨ m.fault ≠ none → m' = m) (unitMachines u) (unitMachines u')

/-- spec/10_state.md R29: no call changes the length of any memory. -/
def Obligations.MemoryLengthsNeverChange : Prop :=
  ∀ (fuel : Nat) (u u' : ExecUnit) (input : List Int) (r : Result), execute fuel u input = some (r, u') →
    (unitMachines u').map (fun m => m.mem.length) = (unitMachines u).map (fun m => m.mem.length)

/-! ## The caller's other operations -/

/-- spec/46_machine_and_pipe.md R170: the constructed machine (`pc` and `run_state` are D15, the latch D12: log entry 12; the
caller's handle is the model's, log entry 3). -/
def Obligations.ConstructGivesANewMachine : Prop :=
  ∀ (s : State) (image : List Int) (rest : List Request), s.call = none → s.requests = .construct image :: rest →
    image.all isWord = true → image.length ≤ 2 ^ 63 - 1 →
    step s = .next { s with
      units := s.units ++ [some (.machine { mem := image, pc := 0, runState := .running, fault := none })]
      requests := rest
      replies := s.replies ++ [.made s.units.length] }

/-- spec/46_machine_and_pipe.md R177: the clone is a second machine with equal memory, `pc`, run state and latch, and the original
stays (that all of the state is copied, in any state of the machine, is D27, log entry 12). -/
def Obligations.CloneGivesAnEqualMachine : Prop :=
  ∀ (s : State) (h : Nat) (m : MachineState) (rest : List Request), s.call = none → s.requests = .clone h :: rest →
    s.units[h]? = some (some (.machine m)) →
    ∃ t, step s = .next t ∧ t.units[h]? = some (some (.machine m)) ∧ t.units[s.units.length]? = some (some (.machine m)) ∧
      t.replies = s.replies ++ [.made s.units.length] ∧ t.call = none ∧ t.requests = rest

/-- spec/46_machine_and_pipe.md R179, R180, R190: the pipe holds both members in order, as they are, and the caller no longer holds them;
every other unit stays; nothing is executed. That the members' handles then name nothing and that the pipe stands at the next position is
the model's (log entry 3). -/
def Obligations.ComposePassesOwnershipToThePipe : Prop :=
  ∀ (s : State) (a b : Nat) (ua ub : ExecUnit) (rest : List Request), s.call = none → s.requests = .compose a b :: rest →
    a ≠ b → s.units[a]? = some (some ua) → s.units[b]? = some (some ub) →
    ∃ t, step s = .next t ∧ t.units[s.units.length]? = some (some (.pipe ua ub)) ∧
      t.units[a]? = some none ∧ t.units[b]? = some none ∧
      (∀ j, j < s.units.length → j ≠ a → j ≠ b → t.units[j]? = s.units[j]?) ∧
      t.replies = s.replies ++ [.made s.units.length] ∧ t.call = none ∧ t.requests = rest

/-- spec/46_machine_and_pipe.md R175: the snapshot is all of memory, in every state of the machine (D27, log entry
12), and changes nothing. -/
def Obligations.SnapshotShowsAllCells : Prop :=
  ∀ (s : State) (h : Nat) (m : MachineState) (rest : List Request), s.call = none → s.requests = .snapshot h :: rest →
    s.units[h]? = some (some (.machine m)) →
    step s = .next { s with requests := rest, replies := s.replies ++ [.snapshotIs h m.mem] }

/-- spec/93_implementation_defined.md U11, U13: a unit composed with itself, be it a machine, a pipe or nothing at all, and the
snapshot and the clone of a pipe, are refused (the refusals are the model's, log entry 3). -/
def Obligations.UndefinedOperationsAreRefused : Prop :=
  ∀ (s : State) (h : Nat) (rest : List Request), s.call = none →
    (s.requests = .compose h h :: rest → step s = .refused .composedWithItself) ∧
    (∀ a b : ExecUnit, s.units[h]? = some (some (.pipe a b)) →
      (s.requests = .snapshot h :: rest → step s = .refused .snapshotOfPipe) ∧
      (s.requests = .clone h :: rest → step s = .refused .cloneOfPipe))

/-- spec/60_exceptions.md R215, R222: between calls, with nothing asked for, nothing happens (the step that
does nothing is the model's, log entry 10). -/
def Obligations.NothingHappensBetweenCalls : Prop :=
  ∀ s : State, s.call = none → s.requests = [] → step s = .next s

/-! ## The loader -/

/-- spec/30_encoding.md R74, spec/70_reset_and_hazards.md R236: the loader reads every machine-code listing back, with whitespace
before and after it. Which characters are whitespace is the model's choice (log entry 6). -/
def Obligations.LoadReadsEveryListing : Prop :=
  ∀ (image : List Int) (before after : List Char), image ≠ [] → image.all isWord = true →
    before.all isSpace = true → after.all isSpace = true → load (before ++ listing image ++ after) = some image

/-- spec/70_reset_and_hazards.md R236: an element is an optional `-`, then one or more decimal digits, and denotes a Word;
nothing else is one (D21, log entry 12). -/
def Obligations.LoadElementIsASignedDecimalWord : Prop :=
  ∀ (part : List Char) (v : Int), readElement part = some v ↔
    isWord v = true ∧ ∃ ds : List Nat, ds ≠ [] ∧ (∀ d ∈ ds, d < 10) ∧
      ((part = ds.map (fun d => Char.ofNat (48 + d)) ∧ v = (digitsValue ds : Int)) ∨
       (part = '-' :: ds.map (fun d => Char.ofNat (48 + d)) ∧ v = -(digitsValue ds : Int)))

/-- spec/70_reset_and_hazards.md R236, R237: the image has one cell per element, so never none, each a Word (D21, log
entry 12). -/
def Obligations.LoadedImageHasOneCellPerElement : Prop :=
  ∀ (text : List Char) (image : List Int), load text = some image →
    image.length = (trim text).count ',' + 1 ∧ image.all isWord = true

/-! ## Reset and the invariant -/

/-- spec/10_state.md R33, spec/70_reset_and_hazards.md R231: a machine after construction from ANY image; State.reset is the case of
the empty image (the model's choice, log entry 1). -/
def Obligations.ResetHoldsANewMachine : Prop :=
  (∀ image : List Int,
    (State.boot image).units = [some (.machine { mem := image, pc := 0, runState := .running, fault := none })] ∧
    (State.boot image).call = none) ∧
  State.reset = State.boot []

/-- spec/10_state.md R33, spec/70_reset_and_hazards.md R231: the invariant holds after construction from any image of Words, and at
State.reset, whose empty image is the model's choice (log entry 1). -/
def Obligations.InvariantHoldsAtReset : Prop :=
  State.reset.inv = true ∧
  ∀ image : List Int, image.all isWord = true → image.length ≤ 2 ^ 63 - 1 → (State.boot image).inv = true

/-- spec/00_scope.md R6, R7, spec/10_state.md R22, R26, spec/42_execution_engine.md R129, spec/60_exceptions.md R210: every step
keeps: every cell, queued input and output is a Word, no memory exceeds `2^63 - 1` cells, every `pc` is an Index, a failed machine is
still Running, a call that has ended left its machine as its result says, a machine at rest is Running only if new or failed. -/
def Obligations.EveryStepKeepsTheInvariant : Prop :=
  ∀ s t : State, s.inv = true → step s = .next t → t.inv = true

/-! ## The halt, the order of a pipe, and `load` as an operation -/

/-- spec/42_execution_engine.md R126: the cell 99 at `pc` ends the call, whatever the rest of memory holds, with the outputs so far;
memory stays; `finished()` of the whole unit is then true; and no step changes a machine that is Finished. -/
def Obligations.HaltEndsTheCallForGood : Prop :=
  (∀ (s : State) (c : Call), InCycle s c → c.machine.mem[c.machine.pc]? = some 99 →
    ∃ t c', step s = .next t ∧ t.call = some c' ∧ c'.machine.runState = .finished ∧ c'.machine.mem = c.machine.mem ∧
      c'.machine.fault = none ∧ c'.ended = some (.ok c.out) ∧
      unitFinished (plug (.machine c'.machine) c'.ctx) = true) ∧
  (∀ (s t : State) (c c' : Call), s.call = some c → c.ended = none → c.machine.runState = .finished →
    step s = .next t → t.call = some c' → c'.machine = c.machine)

/-- spec/20_memory.md R55: while a machine's call runs, no step turns to another machine or touches one; once it has ended, the step
that turns to another machine turns to the next in chain order, only after `Ok`, with exactly the outputs of that call as its input,
no outputs of its own, and no machine changed. -/
def Obligations.PipeMembersRunStrictlyInChainOrder : Prop :=
  ∀ (s t : State) (c c' : Call), s.call = some c → step s = .next t → t.call = some c' →
    c'.handle = c.handle ∧ t.units = s.units ∧
    (c.ended = none → c'.ctx = c.ctx) ∧
    (∀ r, c.ended = some r →
      r = .ok c'.inq ∧ c'.out = [] ∧ c'.ended = none ∧
      chainBefore c'.ctx = chainBefore c.ctx ++ [c.machine] ∧
      plug (.machine c'.machine) c'.ctx = plug (.machine c.machine) c.ctx)

/-- spec/46_machine_and_pipe.md R178, R190: `load(text)` gives the caller the memory sequence exactly where the text is a program, and
the load error exactly where it is none; it makes no machine and changes nothing else. Requests and replies are the model's (log
entry 2), the loader's strictness is D21 (log entry 12), its whitespace log entry 6. -/
def Obligations.LoadAnswersTheImageOrTheError : Prop :=
  ∀ (s : State) (text : List Char) (rest : List Request), s.call = none → s.requests = .load text :: rest →
    (∀ image, load text = some image →
      step s = .next { s with requests := rest, replies := s.replies ++ [.loaded image] }) ∧
    (load text = none → step s = .next { s with requests := rest, replies := s.replies ++ [.loadError] })
end

