-- ==== Sys2Proof/Laws/State.lean ====
section
/-! SUPPORT. The small lemmas of the state updates: one per field per update, all by `rfl`. -/

namespace Sys2Proof.Machine

section
variable (m : MachineState) (i : Nat) (v : Int) (r : RunState) (f : Fault)

@[simp] theorem memWrite_mem : (memWrite m i v).mem = m.mem.set i v := rfl
@[simp] theorem memWrite_pc : (memWrite m i v).pc = m.pc := rfl
@[simp] theorem memWrite_runState : (memWrite m i v).runState = m.runState := rfl
@[simp] theorem memWrite_fault : (memWrite m i v).fault = m.fault := rfl
@[simp] theorem setPc_mem : (setPc m i).mem = m.mem := rfl
@[simp] theorem setPc_pc : (setPc m i).pc = i := rfl
@[simp] theorem setPc_runState : (setPc m i).runState = m.runState := rfl
@[simp] theorem setPc_fault : (setPc m i).fault = m.fault := rfl
@[simp] theorem setRunState_mem : (setRunState m r).mem = m.mem := rfl
@[simp] theorem setRunState_pc : (setRunState m r).pc = m.pc := rfl
@[simp] theorem setRunState_runState : (setRunState m r).runState = r := rfl
@[simp] theorem setRunState_fault : (setRunState m r).fault = m.fault := rfl
@[simp] theorem setFault_mem : (setFault m f).mem = m.mem := rfl
@[simp] theorem setFault_pc : (setFault m f).pc = m.pc := rfl
@[simp] theorem setFault_runState : (setFault m f).runState = m.runState := rfl
@[simp] theorem setFault_fault : (setFault m f).fault = some f := rfl

end

section
variable (c : Call) (r : Result) (f : Fault)

@[simp] theorem endCall_handle : (endCall r c).handle = c.handle := rfl
@[simp] theorem endCall_ctx : (endCall r c).ctx = c.ctx := rfl
@[simp] theorem endCall_machine : (endCall r c).machine = c.machine := rfl
@[simp] theorem endCall_inq : (endCall r c).inq = [] := rfl
@[simp] theorem endCall_out : (endCall r c).out = [] := rfl
@[simp] theorem endCall_ended : (endCall r c).ended = some r := rfl
@[simp] theorem raise_handle : (raise f c).handle = c.handle := rfl
@[simp] theorem raise_ctx : (raise f c).ctx = c.ctx := rfl
@[simp] theorem raise_machine : (raise f c).machine = setFault c.machine f := rfl
@[simp] theorem raise_inq : (raise f c).inq = [] := rfl
@[simp] theorem raise_out : (raise f c).out = [] := rfl
@[simp] theorem raise_ended : (raise f c).ended = some (.err f) := rfl
@[simp] theorem suspend_handle : (suspend c).handle = c.handle := rfl
@[simp] theorem suspend_ctx : (suspend c).ctx = c.ctx := rfl
@[simp] theorem suspend_machine : (suspend c).machine = setRunState c.machine .awaitingInput := rfl
@[simp] theorem suspend_inq : (suspend c).inq = [] := rfl
@[simp] theorem suspend_out : (suspend c).out = [] := rfl
@[simp] theorem suspend_ended : (suspend c).ended = some (.ok c.out) := rfl
@[simp] theorem halt_handle : (halt c).handle = c.handle := rfl
@[simp] theorem halt_ctx : (halt c).ctx = c.ctx := rfl
@[simp] theorem halt_machine : (halt c).machine = setRunState c.machine .finished := rfl
@[simp] theorem halt_inq : (halt c).inq = [] := rfl
@[simp] theorem halt_out : (halt c).out = [] := rfl
@[simp] theorem halt_ended : (halt c).ended = some (.ok c.out) := rfl

end

end Sys2Proof.Machine
end

