-- ==== Sys2Proof/Laws/Operands.lean ====
section
/-! SUPPORT. Once and for all what the operand operations can answer, in the terms of Sys2Proof/Safety.lean. -/

namespace Sys2Proof.Machine

theorem fetch_ok_iff {m : MachineState} {i : Nat} {v : Int} : fetch m i = .ok v ↔ m.mem[i]? = some v := by
  unfold fetch memRead
  split <;> simp_all

theorem fetch_error_iff {m : MachineState} {i : Nat} {f : Fault} :
    fetch m i = .error f ↔ m.mem.length ≤ i ∧ f = .unexpectedEndOfFile := by
  unfold fetch memRead
  split
  · rename_i v h
    obtain ⟨hi, -⟩ := List.getElem?_eq_some_iff.1 h
    simp; omega
  · rename_i h
    have := List.getElem?_eq_none_iff.1 h
    simp [this, eq_comm]

theorem operandCell_ok_iff {m : MachineState} {k : Nat} {raw : Int} :
    operandCell m k = .ok raw ↔ OperandAt m k raw := fetch_ok_iff

theorem operandCell_error_iff {m : MachineState} {k : Nat} {f : Fault} :
    operandCell m k = .error f ↔ m.mem.length ≤ m.pc + k ∧ f = .unexpectedEndOfFile := fetch_error_iff

theorem OperandAt.lt {m : MachineState} {k : Nat} {raw : Int} (h : OperandAt m k raw) : m.pc + k < m.mem.length :=
  (List.getElem?_eq_some_iff.1 h).1

theorem OperandAt.unique {m : MachineState} {k : Nat} {raw raw' : Int} (h : OperandAt m k raw)
    (h' : OperandAt m k raw') : raw' = raw := Option.some.inj (h'.symm.trans h)

theorem indexOf_ok_iff {raw : Int} {i : Nat} : indexOf raw = .ok i ↔ raw = (i : Int) := by
  unfold indexOf
  split
  · simp; omega
  · simp; omega

theorem indexOf_error_iff {raw : Int} {f : Fault} : indexOf raw = .error f ↔ raw < 0 ∧ f = .invalidAddress := by
  unfold indexOf
  split <;> simp_all [eq_comm]

theorem narrow_ok_iff {r v : Int} : narrow r = .ok v ↔ isWord r = true ∧ v = r := by
  unfold narrow
  cases isWord r
  · simp
  · simp [eq_comm (a := v)]

theorem narrow_error_iff {r : Int} {f : Fault} :
    narrow r = .error f ↔ isWord r = false ∧ f = .arithmeticOverflow := by
  unfold narrow
  cases isWord r
  · simp [eq_comm (a := f)]
  · simp

theorem bind_ok_iff {α β : Type} {x : Except Fault α} {g : α → Except Fault β} {b : β} :
    (x >>= g) = .ok b ↔ ∃ a, x = .ok a ∧ g a = .ok b := by
  cases x <;> simp [bind, Except.bind]

theorem bind_error_iff {α β : Type} {x : Except Fault α} {g : α → Except Fault β} {f : Fault} :
    (x >>= g) = .error f ↔ x = .error f ∨ ∃ a, x = .ok a ∧ g a = .error f := by
  cases x <;> simp [bind, Except.bind]

theorem readOperand_ok_iff {m : MachineState} {mode : Mode} {raw v : Int} :
    readOperand m mode raw = .ok v ↔
      match mode with
      | .immediate => raw = v
      | .reference => 0 ≤ raw ∧ m.mem[raw.toNat]? = some v := by
  cases mode with
  | immediate => simp [readOperand]
  | reference =>
    simp only [readOperand, bind_ok_iff, indexOf_ok_iff, memRead]
    constructor
    · rintro ⟨i, rfl, h⟩
      split at h <;> simp_all
    · rintro ⟨h0, h⟩
      exact ⟨raw.toNat, by omega, by simp [h]⟩

theorem readOperand_error_iff {m : MachineState} {mode : Mode} {raw : Int} {f : Fault} :
    readOperand m mode raw = .error f ↔
      mode = .reference ∧ ((raw < 0 ∧ f = .invalidAddress) ∨ ((m.mem.length : Int) ≤ raw ∧ f = .outOfBounds)) := by
  cases mode with
  | immediate => simp [readOperand]
  | reference =>
    simp only [readOperand, bind_error_iff, indexOf_ok_iff, indexOf_error_iff, memRead, true_and]
    constructor
    · rintro (h | ⟨i, rfl, h⟩)
      · exact .inl h
      · split at h
        · cases h
        · rename_i hn
          have := List.getElem?_eq_none_iff.1 hn
          cases h
          exact .inr ⟨by omega, rfl⟩
    · rintro (h | ⟨h, rfl⟩)
      · exact .inl h
      · refine .inr ⟨raw.toNat, by omega, ?_⟩
        have : m.mem[raw.toNat]? = none := List.getElem?_eq_none_iff.2 (by omega)
        simp [this]

theorem sourceOperand_ok_iff {m : MachineState} {mode : Mode} {k : Nat} {v : Int} :
    sourceOperand m mode k = .ok v ↔ SourceAt m mode k v := by
  simp only [sourceOperand, bind_ok_iff, operandCell_ok_iff, readOperand_ok_iff]
  cases mode <;> simp [SourceAt]

theorem sourceOperand_error_iff {m : MachineState} {mode : Mode} {k : Nat} {f : Fault} :
    sourceOperand m mode k = .error f ↔ SourceFails m mode k f := by
  simp only [sourceOperand, bind_error_iff, operandCell_ok_iff, operandCell_error_iff, readOperand_error_iff, SourceFails]
  constructor
  · rintro (h | ⟨raw, h, rfl, h' | h'⟩)
    · exact .inl h
    · exact .inr (.inl ⟨rfl, raw, h, h'⟩)
    · exact .inr (.inr ⟨rfl, raw, h, h'⟩)
  · rintro (h | ⟨rfl, raw, h, h'⟩ | ⟨rfl, raw, h, h'⟩)
    · exact .inl h
    · exact .inr ⟨raw, h, rfl, .inl h'⟩
    · exact .inr ⟨raw, h, rfl, .inr h'⟩

theorem writeOperand_ok_iff {m m' : MachineState} {mode : Mode} {raw v : Int} :
    writeOperand m mode raw v = .ok m' ↔
      mode = .reference ∧ ∃ i : Nat, raw = (i : Int) ∧ i < m.mem.length ∧ m' = memWrite m i v := by
  cases mode with
  | immediate => simp [writeOperand]
  | reference =>
    simp only [writeOperand, bind_ok_iff, indexOf_ok_iff, true_and]
    refine exists_congr fun i => and_congr_right fun _ => ?_
    split <;> simp_all [eq_comm]

theorem writeOperand_error_iff {m : MachineState} {mode : Mode} {raw v : Int} {f : Fault} :
    writeOperand m mode raw v = .error f ↔
      (mode = .immediate ∧ f = .immediateModeOutput) ∨
      (mode = .reference ∧
        ((raw < 0 ∧ f = .invalidAddress) ∨ ((m.mem.length : Int) ≤ raw ∧ f = .outOfBounds))) := by
  cases mode with
  | immediate => simp [writeOperand, eq_comm]
  | reference =>
    simp only [writeOperand, bind_error_iff, indexOf_ok_iff, indexOf_error_iff, reduceCtorEq, false_and, false_or, true_and]
    refine or_congr_right ⟨?_, ?_⟩
    · rintro ⟨i, rfl, h⟩
      split at h
      · cases h
      · cases h
        exact ⟨by omega, rfl⟩
    · rintro ⟨h, rfl⟩
      refine ⟨raw.toNat, by omega, ?_⟩
      rw [if_neg (by omega)]

/-- Everything a three-operand operation that completes has done. -/
theorem binary_ok_iff {g : Int → Int → Except Fault Int} {m1 m2 m3 : Mode} {m m' : MachineState} :
    binary g m1 m2 m3 m = .ok m' ↔
      ∃ a b r, ∃ i : Nat, SourceAt m m1 1 a ∧ SourceAt m m2 2 b ∧ OperandAt m 3 (i : Int) ∧ g a b = .ok r ∧
        m3 = .reference ∧ i < m.mem.length ∧ m' = setPc (memWrite m i r) (m.pc + 4) := by
  simp only [binary, bind_ok_iff, sourceOperand_ok_iff, operandCell_ok_iff, writeOperand_ok_iff, pure, Except.pure,
    Except.ok.injEq]
  constructor
  · rintro ⟨a, ha, b, hb, raw, hraw, r, hr, _, ⟨h3, i, rfl, hi, rfl⟩, rfl⟩
    exact ⟨a, b, r, i, ha, hb, hraw, hr, h3, hi, rfl⟩
  · rintro ⟨a, b, r, i, ha, hb, hraw, hr, h3, hi, rfl⟩
    exact ⟨a, ha, b, hb, i, hraw, r, hr, _, ⟨h3, i, rfl, hi, rfl⟩, rfl⟩

/-- Every way a three-operand operation fails, in the order of spec/60_exceptions.md R205. -/
theorem binary_error_iff {g : Int → Int → Except Fault Int} {m1 m2 m3 : Mode} {m : MachineState} {f : Fault} :
    binary g m1 m2 m3 m = .error f ↔
      SourceFails m m1 1 f ∨ ∃ a, SourceAt m m1 1 a ∧
        (SourceFails m m2 2 f ∨ ∃ b, SourceAt m m2 2 b ∧
          ((m.mem.length ≤ m.pc + 3 ∧ f = .unexpectedEndOfFile) ∨ ∃ raw, OperandAt m 3 raw ∧
            (g a b = .error f ∨ ∃ r, g a b = .ok r ∧
              ((m3 = .immediate ∧ f = .immediateModeOutput) ∨
               (m3 = .reference ∧
                 ((raw < 0 ∧ f = .invalidAddress) ∨ ((m.mem.length : Int) ≤ raw ∧ f = .outOfBounds))))))) := by
  simp only [binary, bind_error_iff, sourceOperand_ok_iff, sourceOperand_error_iff, operandCell_ok_iff,
    operandCell_error_iff, writeOperand_error_iff, pure, Except.pure, reduceCtorEq, and_false, exists_false, or_false]

/-- Everything a jump that completes has done. -/
theorem jump_ok_iff {taken : Int → Bool} {m1 m2 : Mode} {m m' : MachineState} :
    jump taken m1 m2 m = .ok m' ↔
      ∃ v t, SourceAt m m1 1 v ∧ SourceAt m m2 2 t ∧
        ((taken v = true ∧ ∃ i : Nat, t = (i : Int) ∧ m' = setPc m i) ∨
         (taken v = false ∧ m' = setPc m (m.pc + 3))) := by
  simp only [jump, bind_ok_iff, sourceOperand_ok_iff]
  constructor
  · rintro ⟨v, hv, t, ht, h⟩
    refine ⟨v, t, hv, ht, ?_⟩
    cases hb : taken v with
    | false => simpa [hb, pure, Except.pure, eq_comm (a := m')] using h
    | true => simpa [hb, bind_ok_iff, indexOf_ok_iff, pure, Except.pure, eq_comm (a := m')] using h
  · rintro ⟨v, t, hv, ht, h⟩
    refine ⟨v, hv, t, ht, ?_⟩
    cases hb : taken v with
    | false => simpa [hb, pure, Except.pure, eq_comm (a := m')] using h
    | true => simpa [hb, bind_ok_iff, indexOf_ok_iff, pure, Except.pure, eq_comm (a := m')] using h

/-- Every way a jump fails, in the order of spec/60_exceptions.md R205. -/
theorem jump_error_iff {taken : Int → Bool} {m1 m2 : Mode} {m : MachineState} {f : Fault} :
    jump taken m1 m2 m = .error f ↔
      SourceFails m m1 1 f ∨ ∃ v, SourceAt m m1 1 v ∧
        (SourceFails m m2 2 f ∨ ∃ t, SourceAt m m2 2 t ∧ taken v = true ∧ t < 0 ∧ f = .invalidAddress) := by
  simp only [jump, bind_error_iff, sourceOperand_ok_iff, sourceOperand_error_iff]
  refine or_congr_right (exists_congr fun v => and_congr_right fun _ => or_congr_right (exists_congr fun t =>
    and_congr_right fun _ => ?_))
  cases hb : taken v <;> simp [bind_error_iff, indexOf_error_iff, pure, Except.pure]

end Sys2Proof.Machine
end

