-- ==== Sys2Proof/Laws/Cycle.lean ====
section
/-! SUPPORT. What an operation can do to the call in progress, said once (`callEffect_cases`), and the step in a call. -/

namespace Sys2Proof.Machine

/-- `exec` acts on the call in progress and on nothing else. -/
theorem exec_eq_inCall (i : Instr) (s : State) : exec i s = inCall s (callEffect i) := by
  cases i <;> rfl

theorem exec_of_call {i : Instr} {s : State} {c : Call} (h : s.call = some c) :
    exec i s = .next { s with call := some (callEffect i c) } := by
  rw [exec_eq_inCall, inCall, h]

theorem exec_without_call {i : Instr} {s : State} (h : s.call = none) : exec i s = .next s := by
  rw [exec_eq_inCall, inCall, h]

/-! ## The effect of each operation -/

section
variable (a b d : Mode) (c : Call)

theorem callEffect_add : callEffect (.add a b d) c = settle c (binary addResult a b d c.machine) := rfl
theorem callEffect_mul : callEffect (.mul a b d) c = settle c (binary mulResult a b d c.machine) := rfl
theorem callEffect_lt : callEffect (.lt a b d) c = settle c (binary ltResult a b d c.machine) := rfl
theorem callEffect_eq : callEffect (.eq a b d) c = settle c (binary eqResult a b d c.machine) := rfl
theorem callEffect_inp : callEffect (.inp a) c = inputEffect a c := rfl
theorem callEffect_out : callEffect (.out a) c = outputEffect a c := rfl
theorem callEffect_jt : callEffect (.jt a b) c = settle c (jump truthOf a b c.machine) := rfl
theorem callEffect_jf : callEffect (.jf a b) c = settle c (jump (fun v => !truthOf v) a b c.machine) := rfl
theorem callEffect_hlt :
    callEffect .hlt c = halt { c with machine := setPc c.machine (c.machine.pc + 1) } := rfl

end

theorem settle_ok (c : Call) (m : MachineState) : settle c (.ok m) = { c with machine := m } := rfl
theorem settle_error (c : Call) (f : Fault) : settle c (.error f) = raise f c := rfl

theorem isWord_truthWord (p : Bool) : isWord (truthWord p) = true := by cases p <;> rfl

/-- A three-operand operation: it raises one of the failures a three-operand operation can raise, or what `g` can, or it
stores `g`'s result at the cell the destination names. -/
theorem binary_cases (g : Int → Int → Except Fault Int) (m1 m2 m3 : Mode) (c : Call) :
    (∃ f, settle c (binary g m1 m2 m3 c.machine) = raise f c ∧
      (f ∈ [.unexpectedEndOfFile, .invalidAddress, .outOfBounds, .immediateModeOutput] ∨
        ∃ a b, g a b = .error f)) ∨
    (∃ a b r, ∃ i : Nat, g a b = .ok r ∧ OperandAt c.machine 3 (i : Int) ∧ i < c.machine.mem.length ∧
      settle c (binary g m1 m2 m3 c.machine) =
        { c with machine := setPc (memWrite c.machine i r) (c.machine.pc + 4) }) := by
  cases h : binary g m1 m2 m3 c.machine with
  | ok m' =>
    obtain ⟨a, b, r, i, -, -, hi, hg, -, hlt, rfl⟩ := binary_ok_iff.1 h
    exact .inr ⟨a, b, r, i, hg, hi, hlt, rfl⟩
  | error f =>
    refine .inl ⟨f, rfl, ?_⟩
    rcases binary_error_iff.1 h with h | ⟨a, -, h | ⟨b, -, ⟨-, rfl⟩ | ⟨raw, -, h | ⟨r, -, ⟨-, rfl⟩ | ⟨-, ⟨-, rfl⟩ | ⟨-, rfl⟩⟩⟩⟩⟩⟩
    · rcases h with ⟨-, rfl⟩ | ⟨-, _, -, -, rfl⟩ | ⟨-, _, -, -, rfl⟩ <;> simp
    · rcases h with ⟨-, rfl⟩ | ⟨-, _, -, -, rfl⟩ | ⟨-, _, -, -, rfl⟩ <;> simp
    · simp
    · exact .inr ⟨a, b, h⟩
    · simp
    · simp
    · simp

/-- A jump: it raises a failure, goes to `start + 3`, or goes to the value of operand2. -/
theorem jump_cases (taken : Int → Bool) (m1 m2 : Mode) (c : Call) :
    (∃ f, settle c (jump taken m1 m2 c.machine) = raise f c ∧
      f ∈ [.unexpectedEndOfFile, .invalidAddress, .outOfBounds]) ∨
    (∃ t : Int, ∃ p : Nat, SourceAt c.machine m2 2 t ∧ (t = (p : Int) ∨ p = c.machine.pc + 3) ∧
      settle c (jump taken m1 m2 c.machine) = { c with machine := setPc c.machine p }) := by
  cases h : jump taken m1 m2 c.machine with
  | ok m' =>
    obtain ⟨v, t, -, ht, ⟨-, i, hi, rfl⟩ | ⟨-, rfl⟩⟩ := jump_ok_iff.1 h
    · exact .inr ⟨t, i, ht, .inl hi, rfl⟩
    · exact .inr ⟨t, _, ht, .inr rfl, rfl⟩
  | error f =>
    refine .inl ⟨f, rfl, ?_⟩
    rcases jump_error_iff.1 h with h | ⟨v, -, h | ⟨t, -, -, -, rfl⟩⟩
    · rcases h with ⟨-, rfl⟩ | ⟨-, _, -, -, rfl⟩ | ⟨-, _, -, -, rfl⟩ <;> simp
    · rcases h with ⟨-, rfl⟩ | ⟨-, _, -, -, rfl⟩ | ⟨-, _, -, -, rfl⟩ <;> simp
    · simp

/-- Everything an operation can do to the call in progress. -/
inductive Effect (i : Instr) (c : Call) : Call → Prop
  /-- It raises a failure that it can raise (spec/60_exceptions.md R209). -/
  | raised (f : Fault) (h : f ∈ raisable i) : Effect i c (raise f c)
  /-- ADD, MUL, LT, EQ: a Word is stored at the cell operand3 names. -/
  | stored (d : Nat) (r : Int) (hi : destinationOperand i = some 3) (hd : OperandAt c.machine 3 (d : Int))
      (hlt : d < c.machine.mem.length) (hr : isWord r = true) :
      Effect i c { c with machine := setPc (memWrite c.machine d r) (c.machine.pc + 4) }
  /-- IN with an empty queue. -/
  | suspended (m1 : Mode) (hi : i = .inp m1) (hq : c.inq = []) : Effect i c (suspend c)
  /-- IN: the front value is stored at the cell operand1 names. -/
  | received (m1 : Mode) (d : Nat) (x : Int) (rest : List Int) (hi : i = .inp m1) (hq : c.inq = x :: rest)
      (hd : OperandAt c.machine 1 (d : Int)) (hlt : d < c.machine.mem.length) :
      Effect i c { c with inq := rest, machine := setPc (memWrite c.machine d x) (c.machine.pc + 2) }
  /-- OUT: the value is appended to the outputs. -/
  | emitted (m1 : Mode) (v : Int) (hi : i = .out m1) (hv : SourceAt c.machine m1 1 v) :
      Effect i c { c with out := c.out ++ [v], machine := setPc c.machine (c.machine.pc + 2) }
  /-- JT, JF: on to the value of operand2, or past the jump. -/
  | jumped (m1 m2 : Mode) (t : Int) (p : Nat) (hi : i = .jt m1 m2 ∨ i = .jf m1 m2) (ht : SourceAt c.machine m2 2 t)
      (hp : t = (p : Int) ∨ p = c.machine.pc + 3) : Effect i c { c with machine := setPc c.machine p }
  /-- HLT. -/
  | halted (hi : i = .hlt) : Effect i c (halt { c with machine := setPc c.machine (c.machine.pc + 1) })

theorem effect_of_binary {i : Instr} {g : Int → Int → Except Fault Int} {m1 m2 m3 : Mode} {c : Call}
    (hi : destinationOperand i = some 3)
    (hc : callEffect i c = settle c (binary g m1 m2 m3 c.machine))
    (hr : ∀ f, f ∈ [Fault.unexpectedEndOfFile, .invalidAddress, .outOfBounds, .immediateModeOutput] → f ∈ raisable i)
    (hg : ∀ a b f, g a b = .error f → f ∈ raisable i)
    (hw : ∀ a b r, g a b = .ok r → isWord r = true) : Effect i c (callEffect i c) := by
  rw [hc]
  rcases binary_cases g m1 m2 m3 c with ⟨f, h, hf⟩ | ⟨a, b, r, d, hgr, hd, hlt, h⟩
  · rw [h]
    rcases hf with hf | ⟨a, b, hf⟩
    · exact .raised f (hr f hf)
    · exact .raised f (hg a b f hf)
  · rw [h]
    exact .stored d r hi hd hlt (hw a b r hgr)

theorem effect_of_jump {i : Instr} {taken : Int → Bool} {m1 m2 : Mode} {c : Call}
    (hi : i = .jt m1 m2 ∨ i = .jf m1 m2)
    (hc : callEffect i c = settle c (jump taken m1 m2 c.machine)) : Effect i c (callEffect i c) := by
  rw [hc]
  rcases jump_cases taken m1 m2 c with ⟨f, h, hf⟩ | ⟨t, p, ht, hp, h⟩
  · rw [h]
    refine .raised f ?_
    rcases hi with rfl | rfl <;> exact hf
  · rw [h]
    exact .jumped m1 m2 t p hi ht hp

/-- What an operation does is one of the things an operation can do. -/
theorem callEffect_cases (i : Instr) (c : Call) : Effect i c (callEffect i c) := by
  cases i with
  | add a b d =>
    refine effect_of_binary rfl (callEffect_add a b d c) (by simp [raisable]) ?_ ?_
    · intro x y f h; simp [raisable, (narrow_error_iff.1 h).2]
    · intro x y r h; obtain ⟨hw, rfl⟩ := narrow_ok_iff.1 h; exact hw
  | mul a b d =>
    refine effect_of_binary rfl (callEffect_mul a b d c) (by simp [raisable]) ?_ ?_
    · intro x y f h; simp [raisable, (narrow_error_iff.1 h).2]
    · intro x y r h; obtain ⟨hw, rfl⟩ := narrow_ok_iff.1 h; exact hw
  | lt a b d =>
    refine effect_of_binary rfl (callEffect_lt a b d c) (by simp [raisable]) (by simp [ltResult]) ?_
    intro x y r h; cases h; exact isWord_truthWord _
  | eq a b d =>
    refine effect_of_binary rfl (callEffect_eq a b d c) (by simp [raisable]) (by simp [eqResult]) ?_
    intro x y r h; cases h; exact isWord_truthWord _
  | jt a b => exact effect_of_jump (.inl rfl) (callEffect_jt a b c)
  | jf a b => exact effect_of_jump (.inr rfl) (callEffect_jf a b c)
  | hlt => exact .halted rfl
  | out a =>
    rw [callEffect_out, outputEffect]
    split
    · rename_i f h
      rcases sourceOperand_error_iff.1 h with ⟨-, rfl⟩ | ⟨-, _, -, -, rfl⟩ | ⟨-, _, -, -, rfl⟩ <;>
        exact .raised _ (by simp [raisable])
    · rename_i v h
      exact .emitted a v rfl (sourceOperand_ok_iff.1 h)
  | inp a =>
    rw [callEffect_inp, inputEffect]
    split
    · rename_i f h
      obtain ⟨-, rfl⟩ := operandCell_error_iff.1 h
      exact .raised _ (by simp [raisable])
    · rename_i raw hraw
      split
      · rename_i hq
        exact .suspended a rfl hq
      · rename_i x rest hq
        cases h : storeInput a raw x c.machine with
        | ok m' =>
          simp only [storeInput, bind_ok_iff, writeOperand_ok_iff, pure, Except.pure, Except.ok.injEq] at h
          obtain ⟨_, ⟨-, d, rfl, hlt, rfl⟩, rfl⟩ := h
          exact .received a d x rest rfl hq (operandCell_ok_iff.1 hraw) hlt
        | error f =>
          simp only [storeInput, bind_error_iff, writeOperand_error_iff, pure, Except.pure, reduceCtorEq, and_false,
            exists_false, or_false] at h
          have he : settle { c with inq := rest } (.error f) = raise f c := rfl
          rw [he]
          rcases h with ⟨-, rfl⟩ | ⟨-, ⟨-, rfl⟩ | ⟨-, rfl⟩⟩ <;> exact .raised _ (by simp [raisable])

/-! ## The step in a call -/

theorem runnable_iff {m : MachineState} : runnable m = true ↔ m.runState = .running ∧ m.fault = none := by
  simp [runnable]

/-- No action of the engine moves the call to another place in the caller's units. -/
theorem engine_keeps_place (c : Call) : (engine c).handle = c.handle ∧ (engine c).ctx = c.ctx := by
  have hi : ∀ i c', Effect i c c' → c'.handle = c.handle ∧ c'.ctx = c.ctx := by
    intro i c' h
    cases h <;> exact ⟨rfl, rfl⟩
  unfold engine cycle enterCall
  split
  · split
    · exact hi _ _ (callEffect_cases _ c)
    · exact ⟨rfl, rfl⟩
  · split
    · exact ⟨rfl, rfl⟩
    · split <;> exact ⟨rfl, rfl⟩

/-- A step of a call that has not ended is the engine's next action on it. -/
theorem step_in_call {s : State} {c : Call} (h : s.call = some c) (he : c.ended = none) :
    step s = .next { s with call := some (engine c) } := by
  simp only [step, stepCall, h, he, engine, cycle, stepCycle]
  split
  · split <;> simp_all [exec_of_call h]
  · rfl

theorem step_hands_on {s : State} {c : Call} {r : Result} (h : s.call = some c) (he : c.ended = some r) :
    step s = .next (returnCall s c r) := by
  simp [step, stepCall, h, he]

theorem step_between_calls {s : State} (h : s.call = none) : step s = serve s := by
  simp [step, h]

theorem fetchInstr_ok_iff {m : MachineState} {i : Instr} :
    fetchInstr m = .ok i ↔ ∃ v, m.mem[m.pc]? = some v ∧ decode v = .ok i := by
  unfold fetchInstr
  split
  · rename_i f h
    have := (fetch_error_iff.1 h).1
    simp [List.getElem?_eq_none_iff.2 this]
  · rename_i v h
    rw [fetch_ok_iff] at h
    simp only [h, Option.some.injEq]
    split <;> simp_all

theorem fetchInstr_error_iff {m : MachineState} {f : Fault} :
    fetchInstr m = .error f ↔
      (m.mem.length ≤ m.pc ∧ f = .unexpectedEndOfFile) ∨
      ∃ v e, m.mem[m.pc]? = some v ∧ decode v = .error e ∧ f = decodeFault e := by
  unfold fetchInstr
  split
  · rename_i f' h
    obtain ⟨hn, rfl⟩ := fetch_error_iff.1 h
    simp [hn, eq_comm (a := f)]
  · rename_i v h
    rw [fetch_ok_iff] at h
    have := (List.getElem?_eq_some_iff.1 h).1
    simp only [h, Option.some.injEq]
    split <;> simp_all [eq_comm (a := f)]

end Sys2Proof.Machine
end

