-- ==== Sys2Proof/Laws/Memory.lean ====
section
/-! SUPPORT. The form of a memory: the one memory operation keeps it, a new machine of Words has it, reset has it. -/

namespace Sys2Proof.Machine

theorem Memory.wf_iff {mem : List Int} :
    Memory.wf mem = true ↔ (∀ v ∈ mem, isWord v = true) ∧ mem.length ≤ Config.maxMemLen := by
  simp [Memory.wf]

/-- A write of a Word keeps the form; the resolver's write is the only operation that changes a memory. -/
theorem Memory.wf_set {mem : List Int} (h : Memory.wf mem = true) (i : Nat) {v : Int} (hv : isWord v = true) :
    Memory.wf (mem.set i v) = true := by
  rw [Memory.wf_iff] at h ⊢
  refine ⟨fun w hw => ?_, by simpa using h.2⟩
  rcases List.mem_or_eq_of_mem_set hw with hw | rfl
  · exact h.1 w hw
  · exact hv

theorem Memory.wf_memWrite {m : MachineState} (h : Memory.wf m.mem = true) (i : Nat) {v : Int}
    (hv : isWord v = true) : Memory.wf (memWrite m i v).mem = true := Memory.wf_set h i hv

theorem Memory.wf_writeOperand {m m' : MachineState} {mode : Mode} {raw v : Int} (h : Memory.wf m.mem = true)
    (hv : isWord v = true) (hw : writeOperand m mode raw v = .ok m') : Memory.wf m'.mem = true := by
  obtain ⟨-, i, -, -, rfl⟩ := writeOperand_ok_iff.1 hw
  exact Memory.wf_memWrite h i hv

theorem Memory.wf_reset : ∀ u ∈ State.reset.units, ∀ m, u = some (.machine m) → Memory.wf m.mem = true := by
  simp [State.reset, State.boot, MachineState.new, Memory.wf]

/-- A read after a write to the same cell gives the value written. -/
theorem memRead_memWrite_same {m : MachineState} {i : Nat} (h : i < m.mem.length) (v : Int) :
    memRead (memWrite m i v) i = some v := by
  simp [memRead, h]

/-- A write leaves every other cell alone. -/
theorem memRead_memWrite_other {m : MachineState} {i j : Nat} (h : i ≠ j) (v : Int) :
    memRead (memWrite m i v) j = memRead m j := by
  simp [memRead, List.getElem?_set_ne h]

end Sys2Proof.Machine
end

