-- ==== Sys2Proof/Laws/PerInstr.lean ====
section
/-! SUPPORT. Statements about every instruction as syntax, one lemma per constructor. Family EncodedCell: the canonical
instruction cell is not negative, has no digit above the ten-thousands digit, carries the opcode in its two low digits, and
the instruction has at most three operands (spec/30_encoding.md R61, R62). -/

namespace Sys2Proof.Laws.EncodedCell

def Statement (i : Instr) : Prop :=
  0 ≤ encode i ∧ encode i < 100000 ∧ encode i % 100 = (i.opcode : Int) ∧ i.length ≤ Config.maxLength

theorem add (a b c : Mode) : Statement (.add a b c) := by unfold Statement; cases a <;> cases b <;> cases c <;> decide
theorem mul (a b c : Mode) : Statement (.mul a b c) := by unfold Statement; cases a <;> cases b <;> cases c <;> decide
theorem inp (a : Mode) : Statement (.inp a) := by unfold Statement; cases a <;> decide
theorem out (a : Mode) : Statement (.out a) := by unfold Statement; cases a <;> decide
theorem jt (a b : Mode) : Statement (.jt a b) := by unfold Statement; cases a <;> cases b <;> decide
theorem jf (a b : Mode) : Statement (.jf a b) := by unfold Statement; cases a <;> cases b <;> decide
theorem lt (a b c : Mode) : Statement (.lt a b c) := by unfold Statement; cases a <;> cases b <;> cases c <;> decide
theorem eq (a b c : Mode) : Statement (.eq a b c) := by unfold Statement; cases a <;> cases b <;> cases c <;> decide
theorem hlt : Statement .hlt := by unfold Statement; decide

end Sys2Proof.Laws.EncodedCell
end

