-- ==== Sys2Proof/Laws/Units.lean ====
section
/-! SUPPORT. How a call goes into a unit and comes back. -/

namespace Sys2Proof.Machine

/-- Going down to the first machine loses nothing. -/
theorem plug_firstMachine (u : ExecUnit) (ctx : List Frame) :
    plug (.machine (firstMachine u ctx).1) (firstMachine u ctx).2 = plug u ctx := by
  induction u generalizing ctx with
  | machine m => rfl
  | pipe a b iha _ => simpa [firstMachine, plug] using iha (.inFirst b :: ctx)

@[simp] theorem openCall_ended (h : Nat) (u : ExecUnit) (ctx : List Frame) (xs : List Int) :
    (openCall h u ctx xs).ended = none := rfl
@[simp] theorem openCall_inq (h : Nat) (u : ExecUnit) (ctx : List Frame) (xs : List Int) :
    (openCall h u ctx xs).inq = xs := rfl
@[simp] theorem openCall_out (h : Nat) (u : ExecUnit) (ctx : List Frame) (xs : List Int) :
    (openCall h u ctx xs).out = [] := rfl
@[simp] theorem openCall_handle (h : Nat) (u : ExecUnit) (ctx : List Frame) (xs : List Int) :
    (openCall h u ctx xs).handle = h := rfl

theorem openCall_machine (h : Nat) (m : MachineState) (ctx : List Frame) (xs : List Int) :
    openCall h (.machine m) ctx xs =
      { handle := h, ctx := ctx, machine := m, inq := xs, out := [], ended := none } := rfl

/-- A call on a pipe is a call on its first member, with the second still to come (spec/46_machine_and_pipe.md R181). -/
theorem openCall_pipe (h : Nat) (a b : ExecUnit) (ctx : List Frame) (xs : List Int) :
    openCall h (.pipe a b) ctx xs = openCall h a (.inFirst b :: ctx) xs := rfl

/-- Coming back from a call that was not `Ok`, nothing more is called (spec/46_machine_and_pipe.md R184). -/
theorem handOn_of_not_ok {u : ExecUnit} {r : Result} (hr : ∀ xs, r ≠ .ok xs) (ctx : List Frame) :
    handOn u r ctx = .back (plug u ctx) r := by
  induction ctx generalizing u with
  | nil => rfl
  | cons f ctx ih =>
    cases f with
    | inSecond a => simpa [handOn, plug] using ih
    | inFirst b =>
      cases r with
      | ok xs => exact absurd rfl (hr xs)
      | err f => simpa [handOn, plug] using ih
      | refused q => simpa [handOn, plug] using ih

/-- Going down to the first machine passes no machine by. -/
theorem chainBefore_firstMachine (u : ExecUnit) (ctx : List Frame) :
    chainBefore (firstMachine u ctx).2 = chainBefore ctx := by
  induction u generalizing ctx with
  | machine m => rfl
  | pipe a b iha _ => simpa [firstMachine, chainBefore] using iha (.inFirst b :: ctx)

/-- All that is known where a member's return leads to another member: it was `Ok`, its outputs are what is handed on, and the next
member stands right after it in a tree that has not changed (spec/46_machine_and_pipe.md R181, R183). -/
theorem handOn_next {u second : ExecUnit} {r : Result} {ctx ctx' : List Frame} {xs : List Int}
    (h : handOn u r ctx = .next second ctx' xs) :
    r = .ok xs ∧ chainBefore ctx' = chainBefore ctx ++ unitMachines u ∧ plug second ctx' = plug u ctx := by
  by_cases hr : ∃ mid, r = .ok mid
  · obtain ⟨mid, rfl⟩ := hr
    induction ctx generalizing u with
    | nil => cases h
    | cons f ctx ih =>
      cases f with
      | inSecond a =>
        obtain ⟨h1, h2, h3⟩ := ih (u := .pipe a u) h
        exact ⟨h1, by simpa [chainBefore, unitMachines] using h2, h3⟩
      | inFirst b =>
        cases h
        exact ⟨rfl, rfl, rfl⟩
  · simp only [not_exists] at hr
    rw [handOn_of_not_ok hr] at h
    cases h

/-- What a call's end leads to, by the frames around the member that returned. -/
theorem handOn_inFirst (u b : ExecUnit) (mid : List Int) (ctx : List Frame) :
    handOn u (.ok mid) (.inFirst b :: ctx) = .next b (.inSecond u :: ctx) mid := rfl

theorem handOn_inSecond (u a : ExecUnit) (r : Result) (ctx : List Frame) :
    handOn u r (.inSecond a :: ctx) = handOn (.pipe a u) r ctx := rfl

end Sys2Proof.Machine
end

