-- ==== Sys2Proof/Laws/Runs.lean ====
section
/-! SUPPORT. Runs of many steps. -/

namespace Sys2Proof.Machine

theorem runSteps_zero (s : State) : runSteps 0 s = some s := rfl

theorem runSteps_succ {n : Nat} {s t : State} (h : step s = .next t) : runSteps (n + 1) s = runSteps n t := by
  simp [runSteps, h]

theorem runSteps_add {n k : Nat} {s t : State} (h : runSteps n s = some t) :
    runSteps (n + k) s = runSteps k t := by
  induction n generalizing s with
  | zero => cases h; simp
  | succ n ih =>
    rw [Nat.succ_add]
    simp only [runSteps] at h ⊢
    split at h <;> simp_all

theorem core_run_succ (M : Host.Core) (n : Nat) (s t : M.State) (h : M.step s = .next t) :
    M.run (n + 1) s = M.run n t := by
  simp [Host.Core.run, h]

/-- A run as the host's interface counts it. -/
theorem run_core_of_runSteps {n : Nat} {s t : State} (h : runSteps n s = some t) :
    Host.Core.run Sys2Proof.core n s = Host.Outcome.next t := by
  induction n generalizing s with
  | zero => cases h; rfl
  | succ n ih =>
    simp only [runSteps] at h
    split at h
    · rename_i u hu
      exact (core_run_succ Sys2Proof.core n s u hu).trans (ih h)
    · cases h
    · cases h

/-- A call that begins, as the caller asks for it. -/
theorem step_begins_call {s : State} {h : Nat} {input : List Int} {rest : List Request} {u : ExecUnit}
    (hc : s.call = none) (hr : s.requests = .execute h input :: rest) (hu : s.units[h]? = some (some u))
    (hw : input.all isWord = true) :
    step s = .next { s with
      units := s.units.set h none, requests := rest, call := some (openCall h u [] input) } := by
  simp [step_between_calls hc, serve, hr, perform, serveExecute, unitAt, hu, hw]

end Sys2Proof.Machine
end

