-- ==== Sys2Proof/Tests/Slice0.lean ====
section
/-! SUPPORT. Tests, each with its source in spec/, and a witness for the hypotheses of every obligation that has some. -/

namespace Sys2Proof.Tests

open Sys2Proof Sys2Proof.Machine

/-! ## Helpers -/

/-- A Running machine. -/
def mach (mem : List Int) (pc : Nat) : MachineState := { mem := mem, pc := pc, runState := .running, fault := none }

/-- A machine in any run state, not failed. -/
def machIn (mem : List Int) (pc : Nat) (r : RunState) : MachineState := { mem := mem, pc := pc, runState := r, fault := none }

/-- A failed machine. -/
def failed (mem : List Int) (pc : Nat) (f : Fault) : MachineState :=
  { mem := mem, pc := pc, runState := .running, fault := some f }

/-- A call on a machine of its own. -/
def callOn (mem : List Int) (pc : Nat) (inq : List Int) : Call :=
  { handle := 0, ctx := [], machine := mach mem pc, inq := inq, out := [], ended := none }

/-- The state in which that call runs. -/
def running (mem : List Int) (pc : Nat) (inq : List Int) : State :=
  { units := [none], call := some (callOn mem pc inq), requests := [], replies := [] }

/-- The state in which the caller holds the units and asks for the operations. -/
def asking (units : List ExecUnit) (requests : List Request) : State :=
  { units := units.map some, call := none, requests := requests, replies := [] }

/-- The call after one step. -/
def stepOf (s : State) : Option Call :=
  match step s with
  | .next t => t.call
  | .fault _ | .refused _ => none

/-- Memory and pc after one step of a machine from `pc`, or the failure it latched. -/
def after (mem : List Int) (pc : Nat) (inq : List Int) : Option (List Int × Nat × Option Fault) :=
  (stepOf (running mem pc inq)).map fun c => (c.machine.mem, c.machine.pc, c.machine.fault)

/-- The failure one step of a machine latched. -/
def failure (mem : List Int) (pc : Nat) (inq : List Int) : Option Fault :=
  (stepOf (running mem pc inq)).bind fun c => c.machine.fault

/-- The call after `exec i`, as a call that is certainly there. -/
def effect (i : Instr) (mem : List Int) (inq : List Int) : Call := callEffect i (callOn mem 0 inq)

/-! ## Well-formedness: a destination in Immediate mode is refused (R65, R66) -/

theorem test_wf_add : (Instr.add .immediate .immediate .immediate).wf = false := by decide
theorem test_wf_mul : (Instr.mul .reference .reference .immediate).wf = false := by decide
theorem test_wf_lt : (Instr.lt .reference .immediate .immediate).wf = false := by decide
theorem test_wf_eq : (Instr.eq .immediate .reference .immediate).wf = false := by decide
theorem test_wf_in : (Instr.inp .immediate).wf = false := by decide
theorem test_wf_accepts : (Instr.add .immediate .immediate .reference).wf = true ∧ (Instr.out .immediate).wf = true := by
  decide

/-! ## Decoding, digit by digit (R91, and spec/95_test_vectors.md 2.1) -/

theorem test_decode_add : decode 1 = .ok (.add .reference .reference .reference) := by decide
theorem test_decode_mul : decode 1002 = .ok (.mul .reference .immediate .reference) := by decide
theorem test_decode_in : decode 3 = .ok (.inp .reference) := by decide
theorem test_decode_out : decode 104 = .ok (.out .immediate) := by decide
theorem test_decode_jt : decode 1105 = .ok (.jt .immediate .immediate) := by decide
theorem test_decode_jf : decode 1006 = .ok (.jf .reference .immediate) := by decide
theorem test_decode_lt : decode 1107 = .ok (.lt .immediate .immediate .reference) := by decide
theorem test_decode_eq : decode 108 = .ok (.eq .immediate .reference .reference) := by decide
theorem test_decode_hlt : decode 99 = .ok .hlt := by decide
theorem test_decode_immediate_destination : decode 10001 = .ok (.add .reference .reference .immediate) := by decide
theorem test_decode_unread_digits :
    decode 1199 = .ok .hlt ∧ decode 7004 = .ok (.out .reference) ∧ decode 20005 = .ok (.jt .reference .reference) ∧
    decode 100001 = .ok (.add .reference .reference .reference) := by decide
theorem test_decode_invalid_opcode :
    decode 0 = .error .invalidOpCode ∧ decode 9 = .error .invalidOpCode ∧ decode 33 = .error .invalidOpCode ∧
    decode 98 = .error .invalidOpCode ∧ decode 5000 = .error .invalidOpCode ∧ decode (-1) = .error .invalidOpCode ∧
    decode (-99) = .error .invalidOpCode := by decide
theorem test_decode_invalid_mode :
    decode 204 = .error .invalidParameterMode ∧ decode 2001 = .error .invalidParameterMode ∧
    decode 20001 = .error .invalidParameterMode ∧ decode 2005 = .error .invalidParameterMode ∧
    decode 9223372036854775807 = .error .invalidParameterMode := by decide
theorem test_decode_table_word : decodeTableWord 64 1002 = some (.mul .reference .immediate .reference) := by decide
theorem test_decode_table_word_negative : decodeTableWord 64 (2 ^ 64 - 1) = none := by decide
/-- `OUT #0` placed at reset is what the very next step runs (operand cells of zeros). -/
theorem test_with_fetch_word :
    (stepOf (State.reset.withFetchWord 0 104)).map (fun c => (c.out, c.machine.pc)) = some ([0], 2) := by decide

/-! ## One step of each operation (spec/95_test_vectors.md 2.3 to 2.6) -/

theorem test_add_negatives : after [1101, -3, -4, 5, 99, 0] 0 [] = some ([1101, -3, -4, 5, 99, -7], 4, none) := by decide
theorem test_add_overflow :
    after [1101, 9223372036854775807, 1, 0, 99] 0 [] =
      some ([1101, 9223372036854775807, 1, 0, 99], 0, some .arithmeticOverflow) := by decide
theorem test_mul_signs : after [1102, -3, -4, 5, 99, 0] 0 [] = some ([1102, -3, -4, 5, 99, 12], 4, none) := by decide
theorem test_mul_overflow :
    failure [1102, -9223372036854775808, -1, 0, 99] 0 [] = some .arithmeticOverflow := by decide
theorem test_lt_strict : after [1107, 3, 3, 5, 99, -1] 0 [] = some ([1107, 3, 3, 5, 99, 0], 4, none) := by decide
theorem test_lt_signed : after [1107, -1, 0, 5, 99, -1] 0 [] = some ([1107, -1, 0, 5, 99, 1], 4, none) := by decide
theorem test_eq_source_is_destination :
    after [8, 5, 6, 5, 99, 8, 8] 0 [] = some ([8, 5, 6, 5, 99, 1, 8], 4, none) := by decide
theorem test_eq_false : after [1108, 1, 2, 5, 99, 7] 0 [] = some ([1108, 1, 2, 5, 99, 0], 4, none) := by decide
theorem test_in_takes_the_front :
    after [3, 5, 99, 0, 0, 0] 0 [1, 2, 3] = some ([3, 5, 99, 0, 0, 1], 2, none) := by decide
theorem test_in_immediate_needs_input :
    (stepOf (running [103, 0, 99] 0 [])).map (fun c => c.machine.runState) = some .awaitingInput ∧
    failure [103, 0, 99] 0 [5] = some .immediateModeOutput := by decide
theorem test_out_appends : (stepOf (running [104, 42, 99] 0 [])).map (fun c => (c.out, c.machine.pc)) = some ([42], 2) := by
  decide
theorem test_jt_negative_is_true : after [1105, -5, 4, 99, 104, 7, 99] 0 [] = some ([1105, -5, 4, 99, 104, 7, 99], 4, none) := by
  decide
theorem test_jt_target_checked_only_if_taken :
    after [1105, 0, -3, 99] 0 [] = some ([1105, 0, -3, 99], 3, none) ∧ failure [1105, 1, -3] 0 [] = some .invalidAddress := by
  decide
theorem test_jf_taken : after [1106, 0, 4, 99, 104, 7, 99] 0 [] = some ([1106, 0, 4, 99, 104, 7, 99], 4, none) := by decide
theorem test_jf_not_taken : after [1106, 5, 4, 99, 104, 7, 99] 0 [] = some ([1106, 5, 4, 99, 104, 7, 99], 3, none) := by decide
theorem test_jump_reads_operand2_untaken : failure [105, 0, 9, 99] 0 [] = some .outOfBounds := by decide
theorem test_hlt : (stepOf (running [99, 5000, -3] 0 [])).map (fun c => (c.machine.pc, c.machine.runState, c.ended)) =
    some (1, .finished, some (.ok [])) := by decide
theorem test_failure_priority :
    failure [10001, -1, 0, 0, 99] 0 [] = some .invalidAddress ∧
    failure [11102, 4611686018427387904, 2, 0, 99] 0 [] = some .arithmeticOverflow ∧
    failure [10001, 0, 0] 0 [] = some .unexpectedEndOfFile ∧ failure [1, -1, 0] 0 [] = some .invalidAddress := by decide
theorem test_failures_at_the_edges :
    failure [] 0 [] = some .unexpectedEndOfFile ∧ failure [3] 0 [] = some .unexpectedEndOfFile ∧
    failure [1, 0, 0, 5, 99] 0 [] = some .outOfBounds ∧ failure [1, 0, 0, -1, 99] 0 [] = some .invalidAddress := by decide

/-! ## Calls, pipes, the caller's operations -/

/-- The source's echo program (S4). -/
theorem test_execute_echo :
    execute 9 (.machine (MachineState.new [3, 0, 4, 0, 99])) [7] =
      some (.ok [7], .machine (machIn [7, 0, 4, 0, 99] 5 .finished)) := by decide

/-- A producer into `H`: what `H` does not read is lost (spec/95_test_vectors.md 2.7, by R183). -/
theorem test_pipe_drops_unread_values :
    execute 9 (.pipe (.machine (MachineState.new [104, 1, 99])) (.machine (MachineState.new [99]))) [] =
      some (.ok [], .pipe (.machine (machIn [104, 1, 99] 3 .finished)) (.machine (machIn [99] 1 .finished))) := by decide

/-- The bad member fails, the member after it is not called (spec/95_test_vectors.md 2.7). -/
theorem test_pipe_failure_stops :
    execute 9 (.pipe (.machine (MachineState.new [5000])) (.machine (MachineState.new [99]))) [5] =
      some (.err .invalidOpCode,
        .pipe (.machine (failed [5000] 0 .invalidOpCode)) (.machine (MachineState.new [99]))) := by decide

/-- R236, R237: whitespace at the ends, a sign; the empty text and a wrong element are load errors. -/
theorem test_load :
    load [' ', '1', ',', '-', '2', '\n'] = some [1, -2] ∧ load [] = none ∧ load ['1', ','] = none ∧
    load ['1', ' ', ',', '2'] = none := by decide

/-- R74. -/
theorem test_listing : listing [1101, -3] = ['1', '1', '0', '1', ',', '-', '3'] := by decide

/-- R76: `ADD #50, #49, [4]` is `1101,50,49,4` (P4). -/
theorem test_assemble :
    assembleText ['A', 'D', 'D', ' ', '#', '5', '0', ',', ' ', '#', '4', '9', ',', ' ', '[', '4', ']'] =
      some [1101, 50, 49, 4] := by decide

/-- Log entry 7: a leading `+` and a remark in parentheses are refused; P6's last line as R76 has it is one cell. -/
theorem test_assemble_refuses :
    readOperandText ['#', '+', '5'] = none ∧ assembleText ['D', 'A', 'T', 'A', ' ', '0', ' ', '(', 'x', ')'] = none ∧
    assembleText ['D', 'A', 'T', 'A', ' ', '0'] = some [0] := by decide

/-! ## Witnesses: a state and operands that meet the hypotheses of each obligation, a clause at a time at its boundary -/

theorem takes (i : Instr) (mem : List Int) (inq : List Int) :
    TakesCallTo i (running mem 0 inq) (callOn mem 0 inq) (effect i mem inq) := ⟨rfl, _, exec_of_call rfl, rfl⟩

theorem inCycle (mem : List Int) (pc : Nat) (inq : List Int) : InCycle (running mem pc inq) (callOn mem pc inq) :=
  ⟨rfl, rfl, rfl, rfl⟩

/-- Operand cell 1 beyond the end; a Reference to index -1; a Reference to index `MEM_LEN`. -/
theorem witness_first_operand_failures :
    FirstOperandFailure (mach [1] 0) (.add .reference .reference .reference) 1 .unexpectedEndOfFile ∧
    FirstOperandFailure (mach [1, -1, 0, 0] 0) (.mul .reference .reference .reference) 1 .invalidAddress ∧
    FirstOperandFailure (mach [104, 3, 0] 0) (.out .reference) 1 .outOfBounds :=
  ⟨⟨by omega, .inl ⟨_, rfl, .inl ⟨by decide, rfl⟩⟩⟩,
   ⟨by omega, .inl ⟨_, rfl, .inr (.inl ⟨rfl, -1, rfl, by decide, rfl⟩)⟩⟩,
   ⟨by omega, .inl ⟨_, rfl, .inr (.inr ⟨rfl, 3, rfl, by decide, rfl⟩)⟩⟩⟩

/-- Operand2 fails where operand1 can be read; the destination's cell is missing where both sources can be read. -/
theorem witness_later_operand_failures :
    FirstOperandFailure (mach [105, 0, 9, 99] 0) (.jt .immediate .reference) 2 .outOfBounds ∧
    FirstOperandFailure (mach [1107, 3, 8] 0) (.lt .immediate .immediate .reference) 3 .unexpectedEndOfFile := by
  refine ⟨⟨?_, .inl ⟨_, rfl, .inr (.inr ⟨rfl, 9, rfl, by decide, rfl⟩)⟩⟩, ⟨?_, .inr ⟨rfl, by decide, rfl⟩⟩⟩
  · intro j mode h1 h2 h
    obtain rfl : j = 1 := by omega
    cases h
    exact ⟨0, rfl⟩
  · intro j mode h1 h2 h
    obtain rfl | rfl : j = 1 ∨ j = 2 := by omega
    all_goals cases h
    · exact ⟨3, rfl⟩
    · exact ⟨8, rfl⟩

/-- What a source operand reads, in both modes. -/
theorem witness_sources :
    SourceAt (mach [101, -5, 0, 3] 0) .immediate 1 (-5) ∧ SourceAt (mach [101, -5, 0, 3] 0) .reference 2 101 ∧
    SourceAt (mach [101, -5, 0, 3] 0) .reference 3 3 :=
  ⟨rfl, ⟨0, rfl, by decide, rfl⟩, ⟨3, rfl, by decide, rfl⟩⟩

theorem witness_StepRunsTheDecodedInstruction :
    InCycle (running [1, 0, 0, 0, 99] 4 []) (callOn [1, 0, 0, 0, 99] 4 []) ∧
    (mach [1, 0, 0, 0, 99] 4).mem[4]? = some 99 ∧ decode 99 = .ok .hlt := ⟨inCycle _ _ _, rfl, by decide⟩

theorem witness_StepRaisesFetchAndDecodeFailures :
    (InCycle (running [99] 1 []) (callOn [99] 1 []) ∧ (callOn [99] 1 []).machine.mem.length ≤ 1) ∧
    (InCycle (running [-1] 0 []) (callOn [-1] 0 []) ∧ (mach [-1] 0).mem[0]? = some (-1) ∧
      decode (-1) = .error .invalidOpCode) ∧
    (InCycle (running [204] 0 []) (callOn [204] 0 []) ∧ (mach [204] 0).mem[0]? = some 204 ∧
      decode 204 = .error .invalidParameterMode) :=
  ⟨⟨inCycle _ _ _, by decide⟩, ⟨inCycle _ _ _, rfl, by decide⟩, ⟨inCycle _ _ _, rfl, by decide⟩⟩

/-- The largest Word fits, `2^63` does not; destinations -1, 0, `MEM_LEN - 1` and `MEM_LEN`. -/
theorem witness_AddStoresTheExactSumOrFails :
    (∀ raw ∈ [(-1 : Int), 0, 3, 4],
      SourceAt (mach [1101, 9223372036854775807, 0, raw] 0) .immediate 1 9223372036854775807 ∧
      SourceAt (mach [1101, 9223372036854775807, 0, raw] 0) .immediate 2 0 ∧
      OperandAt (mach [1101, 9223372036854775807, 0, raw] 0) 3 raw) ∧
    isWord (9223372036854775807 + 0) = true ∧
    SourceAt (mach [1101, 9223372036854775807, 1, 0] 0) .immediate 1 9223372036854775807 ∧
    SourceAt (mach [1101, 9223372036854775807, 1, 0] 0) .immediate 2 1 ∧
    OperandAt (mach [1101, 9223372036854775807, 1, 0] 0) 3 0 ∧ isWord (9223372036854775807 + 1) = false :=
  ⟨fun _ _ => ⟨rfl, rfl, rfl⟩, by decide, rfl, rfl, rfl, by decide⟩

/-- The smallest Word fits, `-2^63 * -1 = 2^63` does not; destinations -1, 0, `MEM_LEN - 1` and `MEM_LEN`. -/
theorem witness_MulStoresTheExactProductOrFails :
    (∀ raw ∈ [(-1 : Int), 0, 3, 4],
      SourceAt (mach [1102, -9223372036854775808, 1, raw] 0) .immediate 1 (-9223372036854775808) ∧
      SourceAt (mach [1102, -9223372036854775808, 1, raw] 0) .immediate 2 1 ∧
      OperandAt (mach [1102, -9223372036854775808, 1, raw] 0) 3 raw) ∧
    isWord (-9223372036854775808 * 1) = true ∧
    SourceAt (mach [1102, -9223372036854775808, -1, 0] 0) .immediate 1 (-9223372036854775808) ∧
    SourceAt (mach [1102, -9223372036854775808, -1, 0] 0) .immediate 2 (-1) ∧
    OperandAt (mach [1102, -9223372036854775808, -1, 0] 0) 3 0 ∧ isWord (-9223372036854775808 * -1) = false :=
  ⟨fun _ _ => ⟨rfl, rfl, rfl⟩, by decide, rfl, rfl, rfl, by decide⟩

/-- Equal operands and operands one apart, for LT and for EQ; destinations -1, 0, `MEM_LEN - 1` and `MEM_LEN`. -/
theorem witness_LtAndEq :
    ∀ b ∈ [(2 : Int), 3, 4], ∀ raw ∈ [(-1 : Int), 0, 3, 4],
      SourceAt (mach [1107, 3, b, raw] 0) .immediate 1 3 ∧ SourceAt (mach [1107, 3, b, raw] 0) .immediate 2 b ∧
      OperandAt (mach [1107, 3, b, raw] 0) 3 raw ∧ isWord (if 3 < b then 1 else 0) = true ∧
      isWord (if 3 = b then 1 else 0) = true := by
  intro b hb raw _
  refine ⟨rfl, rfl, rfl, ?_, ?_⟩ <;> split <;> rfl

/-- The operand cell missing; the queue empty; the queue not empty, with destinations -1, 0, `MEM_LEN - 1` and `MEM_LEN`. -/
theorem witness_InStoresTheFrontOrSuspends :
    (callOn [3] 0 [5]).machine.mem.length ≤ 1 ∧
    (∀ raw ∈ [(-1 : Int), 0, 1, 2], OperandAt (callOn [3, raw] 0 [5]).machine 1 raw) ∧
    (callOn [3, 0] 0 []).inq = [] ∧ (callOn [3, 0] 0 [5]).inq = 5 :: [] :=
  ⟨by decide, fun _ _ => rfl, rfl, rfl⟩

theorem witness_OutAppendsItsValue :
    SourceAt (callOn [104, 42, 99] 0 []).machine .immediate 1 42 ∧
    SourceAt (callOn [4, 2, 99] 0 []).machine .reference 1 99 := ⟨rfl, 2, rfl, by decide, rfl⟩

/-- Operand1 0, 1 and -5; targets -1, 0 and the greatest Word. -/
theorem witness_jumps :
    ∀ v ∈ [(0 : Int), 1, -5], ∀ t ∈ [(-1 : Int), 0, 9223372036854775807],
      SourceAt (callOn [1105, v, t] 0 []).machine .immediate 1 v ∧
      SourceAt (callOn [1105, v, t] 0 []).machine .immediate 2 t := fun _ _ _ _ => ⟨rfl, rfl⟩

theorem witness_HltFinishesTheMachine : (running [99] 0 []).call = some (callOn [99] 0 []) := rfl

theorem witness_failures_in_exec :
    TakesCallTo (.jt .immediate .immediate) (running [1105, 1, -3] 0 []) (callOn [1105, 1, -3] 0 [])
      (effect (.jt .immediate .immediate) [1105, 1, -3] []) ∧
    (callOn [1105, 1, -3] 0 []).ended = none ∧
    (effect (.jt .immediate .immediate) [1105, 1, -3] []).ended = some (.err .invalidAddress) :=
  ⟨takes _ _ _, rfl, by decide⟩

theorem witness_CallOnFailedMachineReturnsItsFailure :
    AsksExecute (asking [.machine (failed [5000] 0 .invalidOpCode)] [.execute 0 [1]]) 0 [1] []
      (.machine (failed [5000] 0 .invalidOpCode)) ∧
    (failed [5000] 0 .invalidOpCode).fault = some .invalidOpCode := ⟨⟨rfl, rfl, rfl, by decide⟩, rfl⟩

theorem witness_CallOnFinishedMachineIsRefused :
    AsksExecute (asking [.machine (machIn [99] 1 .finished)] [.execute 0 []]) 0 [] [] (.machine (machIn [99] 1 .finished)) ∧
    (machIn [99] 1 .finished).fault = none ∧ (machIn [99] 1 .finished).runState = .finished :=
  ⟨⟨rfl, rfl, rfl, by decide⟩, rfl, rfl⟩

theorem witness_ExecDependsOnAndChangesTheCallOnly :
    (running [99] 0 []).call = some (callOn [99] 0 []) ∧ State.reset.call = none := ⟨rfl, rfl⟩

/-- Cell 1 beside the stored cell 0. -/
theorem witness_OnlyTheDestinationCellIsWritten :
    TakesCallTo (.add .immediate .immediate .reference) (running [1101, 1, 1, 0, 99] 0 []) (callOn [1101, 1, 1, 0, 99] 0 [])
      (effect (.add .immediate .immediate .reference) [1101, 1, 1, 0, 99] []) ∧
    ∀ k raw, destinationOperand (.add .immediate .immediate .reference) = some k →
      OperandAt (callOn [1101, 1, 1, 0, 99] 0 []).machine k raw → ((1 : Nat) : Int) ≠ raw := by
  refine ⟨takes _ _ _, fun k raw hk h => ?_⟩
  cases hk
  cases h
  decide

/-- A cycle that stores, one that suspends, one that fails. -/
theorem witness_OneCycleWritesOnlyWhatIsListed :
    ∀ i ∈ [Instr.mul .immediate .immediate .reference, .inp .reference, .jt .immediate .immediate],
      ∃ t c', (running [1102, 1, -3, 0] 0 []).call = some (callOn [1102, 1, -3, 0] 0 []) ∧
        (callOn [1102, 1, -3, 0] 0 []).ended = none ∧ exec i (running [1102, 1, -3, 0] 0 []) = .next t ∧ t.call = some c' :=
  fun _ _ => ⟨_, _, rfl, rfl, exec_of_call rfl, rfl⟩

theorem witness_ArithmeticAndJumpFrame :
    (TakesCallTo (.add .immediate .immediate .reference) (running [1101, 1, 1, 0, 99] 0 []) (callOn [1101, 1, 1, 0, 99] 0 [])
        (effect (.add .immediate .immediate .reference) [1101, 1, 1, 0, 99] []) ∧
      (effect (.add .immediate .immediate .reference) [1101, 1, 1, 0, 99] []).ended = none ∧
      destinationOperand (.add .immediate .immediate .reference) = some 3) ∧
    (TakesCallTo (.jf .immediate .immediate) (running [1106, 0, 0] 0 []) (callOn [1106, 0, 0] 0 [])
        (effect (.jf .immediate .immediate) [1106, 0, 0] []) ∧
      (effect (.jf .immediate .immediate) [1106, 0, 0] []).ended = none) :=
  ⟨⟨takes _ _ _, by decide, rfl⟩, takes _ _ _, by decide⟩

theorem witness_OutFrame :
    TakesCallTo (.out .immediate) (running [104, 42] 0 []) (callOn [104, 42] 0 []) (effect (.out .immediate) [104, 42] []) ∧
    (callOn [104, 42] 0 []).ended = none ∧ (effect (.out .immediate) [104, 42] []).ended = none :=
  ⟨takes _ _ _, rfl, by decide⟩

/-- An IN that completes, and an IN that suspends. -/
theorem witness_InFrame :
    (TakesCallTo (.inp .reference) (running [3, 0] 0 [7]) (callOn [3, 0] 0 [7]) (effect (.inp .reference) [3, 0] [7]) ∧
      (effect (.inp .reference) [3, 0] [7]).ended = none) ∧
    (TakesCallTo (.inp .reference) (running [3, 0] 0 []) (callOn [3, 0] 0 []) (effect (.inp .reference) [3, 0] []) ∧
      (effect (.inp .reference) [3, 0] []).ended = some (.ok [])) :=
  ⟨⟨takes _ _ _, by decide⟩, takes _ _ _, by decide⟩

theorem witness_HltFrame : TakesCallTo .hlt (running [99] 0 []) (callOn [99] 0 []) (effect .hlt [99] []) := takes _ _ _

/-- A call that may run a cycle, and one on a Finished machine. -/
theorem witness_RunStateTransitionsAreTheTabulated :
    (∃ t c', (running [99] 0 []).call = some (callOn [99] 0 []) ∧ (callOn [99] 0 []).ended = none ∧
      step (running [99] 0 []) = .next t ∧ t.call = some c') ∧
    (∃ s c t c', s.call = some c ∧ c.ended = none ∧ c.machine.runState = .finished ∧ step s = .next t ∧ t.call = some c') :=
  ⟨⟨_, _, rfl, rfl, step_in_call rfl rfl, rfl⟩,
   ⟨{ running [99] 0 [] with call := some { callOn [99] 0 [] with machine := machIn [99] 1 .finished } }, _, _, _,
    rfl, rfl, rfl, step_in_call rfl rfl, rfl⟩⟩

/-- P4: the stored 99 is run as HLT. -/
theorem witness_StoreIsSeenByTheNextFetch :
    InCycle (running [1101, 50, 49, 4, 0] 0 []) (callOn [1101, 50, 49, 4, 0] 0 []) ∧
    (mach [1101, 50, 49, 4, 0] 0).mem[0]? = some 1101 ∧
    decode 1101 = .ok (.add .immediate .immediate .reference) ∧
    SourceAt (mach [1101, 50, 49, 4, 0] 0) .immediate 1 50 ∧ SourceAt (mach [1101, 50, 49, 4, 0] 0) .immediate 2 49 ∧
    OperandAt (mach [1101, 50, 49, 4, 0] 0) 3 ((0 + 4 : Nat) : Int) ∧ 0 + 4 < (mach [1101, 50, 49, 4, 0] 0).mem.length ∧
    isWord (50 + 49) = true ∧ decode (50 + 49) = .ok .hlt :=
  ⟨inCycle _ _ _, rfl, by decide, rfl, rfl, rfl, by decide, by decide, by decide⟩

/-- A new machine, and one that awaits input. -/
theorem witness_CallStartsOrResumesTheMachine :
    ∀ r ∈ [RunState.running, RunState.awaitingInput],
      AsksExecute (asking [.machine (machIn [3, 0] 0 r)] [.execute 0 [7]]) 0 [7] [] (.machine (machIn [3, 0] 0 r)) ∧
      (machIn [3, 0] 0 r).fault = none ∧ (machIn [3, 0] 0 r).runState ≠ .finished := by
  intro r hr
  refine ⟨⟨rfl, rfl, rfl, by decide⟩, rfl, ?_⟩
  revert r
  decide

/-- The second machine of a pipe returned inside a pipe whose second member is still to come; and a call that is over. -/
theorem witness_PipeHandsOutputsToSecondMember :
    (∃ (s : State) (c : Call), s.call = some c ∧ c.ended = some (.ok [10]) ∧
      c.ctx = [ExecUnit.machine (mach [99] 0)].map .inSecond ++ .inFirst (.machine (mach [3, 0, 99] 0)) :: []) ∧
    (∃ (s : State) (c : Call), s.call = some c ∧ c.ended = some (.ok [10]) ∧ c.ctx = ([] : List ExecUnit).map .inSecond) :=
  ⟨⟨{ running [99] 1 [] with call := some { callOn [99] 1 [] with
      machine := machIn [99] 1 .finished
      ctx := [.inSecond (.machine (mach [99] 0)), .inFirst (.machine (mach [3, 0, 99] 0))]
      ended := some (.ok [10]) } }, _, rfl, rfl, rfl⟩,
   { running [99] 1 [] with call := some { callOn [99] 1 [] with
      machine := machIn [99] 1 .finished
      ended := some (.ok [10]) } }, _, rfl, rfl, rfl⟩

/-- A failure and a refusal of a first member. -/
theorem witness_FailureEndsTheWholePipeCall :
    ∀ r ∈ [Result.err .invalidOpCode, .refused .executeOnFinished],
      (∀ outputs, r ≠ .ok outputs) ∧ ∃ (s : State) (c : Call), s.call = some c ∧ c.ended = some r ∧
        c.ctx = [.inFirst (.machine (mach [99] 0))] := by
  intro r hr
  refine ⟨?_, { running [99] 0 [] with call := some { callOn [99] 0 [] with
      ctx := [.inFirst (.machine (mach [99] 0))]
      ended := some r } }, _, rfl, rfl, rfl⟩
  simp only [List.mem_cons, List.not_mem_nil, or_false] at hr
  rcases hr with rfl | rfl <;> simp

theorem witness_FinishedIffSomeMachineIsFinished :
    (asking [.pipe (.machine (machIn [99] 1 .finished)) (.machine (mach [99] 0))] [.finished 0]).call = none ∧
    (asking [.pipe (.machine (machIn [99] 1 .finished)) (.machine (mach [99] 0))] [.finished 0]).requests = .finished 0 :: [] ∧
    (asking [.pipe (.machine (machIn [99] 1 .finished)) (.machine (mach [99] 0))] [.finished 0]).units[0]? =
      some (some (.pipe (.machine (machIn [99] 1 .finished)) (.machine (mach [99] 0)))) := ⟨rfl, rfl, rfl⟩

/-- A pipe of two machines that runs to its end: the hypotheses of the statements about `execute`. -/
theorem witness_StepsComputeExecute :
    AsksExecute (asking [.pipe (.machine (mach [104, 1, 99] 0)) (.machine (mach [99] 0))] [.execute 0 []]) 0 [] []
      (.pipe (.machine (mach [104, 1, 99] 0)) (.machine (mach [99] 0))) ∧
    execute 9 (.pipe (.machine (mach [104, 1, 99] 0)) (.machine (mach [99] 0))) [] =
      some (.ok [], .pipe (.machine (machIn [104, 1, 99] 3 .finished)) (.machine (machIn [99] 1 .finished))) :=
  ⟨⟨rfl, rfl, rfl, by decide⟩, by decide⟩

/-- The same for the statements about `execute` with more fuel, an inert machine, the lengths, a unit that is finished. -/
theorem witness_execute_returns :
    execute 9 (.pipe (.machine (machIn [99] 1 .finished)) (.machine (mach [99] 0))) [5] =
      some (.refused .executeOnFinished, .pipe (.machine (machIn [99] 1 .finished)) (.machine (mach [99] 0))) ∧
    9 ≤ 10 := ⟨by decide, by decide⟩

/-- The ways a machine's call ends: suspension, halt, a failure, a repeated failure, a refusal. -/
theorem witness_CallEndsInOneOfTheListedWays :
    execute 9 (.machine (mach [3, 0] 0)) [] = some (.ok [], .machine (machIn [3, 0] 0 .awaitingInput)) ∧
    execute 9 (.machine (mach [99] 0)) [] = some (.ok [], .machine (machIn [99] 1 .finished)) ∧
    execute 9 (.machine (mach [5000] 0)) [] = some (.err .invalidOpCode, .machine (failed [5000] 0 .invalidOpCode)) ∧
    execute 9 (.machine (failed [5000] 0 .invalidOpCode)) [1] =
      some (.err .invalidOpCode, .machine (failed [5000] 0 .invalidOpCode)) ∧
    execute 9 (.machine (machIn [99] 1 .finished)) [] =
      some (.refused .executeOnFinished, .machine (machIn [99] 1 .finished)) := by decide

/-- `H` into a member that waits (spec/95_test_vectors.md 2.7): finished although the second machine waits. -/
theorem witness_OkLeavesEveryMachineWaitingOrFinished :
    execute 9 (.pipe (.machine (mach [99] 0)) (.machine (mach [3, 0] 0))) [5] =
      some (.ok [], .pipe (.machine (machIn [99] 1 .finished)) (.machine (machIn [3, 0] 0 .awaitingInput))) := by decide

/-- Both bracketings of three units return. -/
theorem witness_PipesComposeAssociatively :
    execute 5 (.pipe (.pipe (.machine (mach [99] 0)) (.machine (mach [99] 0))) (.machine (mach [99] 0))) [] =
      some (.ok [], .pipe (.pipe (.machine (machIn [99] 1 .finished)) (.machine (machIn [99] 1 .finished)))
        (.machine (machIn [99] 1 .finished))) := by decide

/-- S6 with its second call ended by HLT, and a second call that fails. -/
theorem witness_ResumedCallEqualsOneCall :
    (execute 5 (.machine (mach [3, 0, 99] 0)) [] = some (.ok [], .machine (machIn [3, 0, 99] 0 .awaitingInput)) ∧
      execute 6 (.machine (machIn [3, 0, 99] 0 .awaitingInput)) [7] =
        some (.ok [], .machine (machIn [7, 0, 99] 3 .finished))) ∧
    (execute 5 (.machine (mach [3, -1] 0)) [] = some (.ok [], .machine (machIn [3, -1] 0 .awaitingInput)) ∧
      execute 6 (.machine (machIn [3, -1] 0 .awaitingInput)) [5] =
        some (.err .invalidAddress, .machine (failed [3, -1] 0 .invalidAddress))) := by decide

theorem witness_ConstructGivesANewMachine :
    (asking [] [.construct [99, -1]]).call = none ∧ (asking [] [.construct [99, -1]]).requests = .construct [99, -1] :: [] ∧
    [99, -1].all isWord = true ∧ [(99 : Int), -1].length ≤ 2 ^ 63 - 1 := ⟨rfl, rfl, by decide, by decide⟩

theorem witness_CloneGivesAnEqualMachine :
    (asking [.machine (mach [99] 0)] [.clone 0]).call = none ∧
    (asking [.machine (mach [99] 0)] [.clone 0]).requests = .clone 0 :: [] ∧
    (asking [.machine (mach [99] 0)] [.clone 0]).units[0]? = some (some (.machine (mach [99] 0))) := ⟨rfl, rfl, rfl⟩

theorem witness_ComposePassesOwnershipToThePipe :
    (asking [.machine (mach [99] 0), .machine (mach [3, 0] 0)] [.compose 0 1]).call = none ∧
    (asking [.machine (mach [99] 0), .machine (mach [3, 0] 0)] [.compose 0 1]).requests = .compose 0 1 :: [] ∧ 0 ≠ 1 ∧
    (asking [.machine (mach [99] 0), .machine (mach [3, 0] 0)] [.compose 0 1]).units[0]? =
      some (some (.machine (mach [99] 0))) ∧
    (asking [.machine (mach [99] 0), .machine (mach [3, 0] 0)] [.compose 0 1]).units[1]? =
      some (some (.machine (mach [3, 0] 0))) := ⟨rfl, rfl, by decide, rfl, rfl⟩

theorem witness_SnapshotShowsAllCells :
    (asking [.machine (mach [99] 0)] [.snapshot 0]).call = none ∧
    (asking [.machine (mach [99] 0)] [.snapshot 0]).requests = .snapshot 0 :: [] ∧
    (asking [.machine (mach [99] 0)] [.snapshot 0]).units[0]? = some (some (.machine (mach [99] 0))) := ⟨rfl, rfl, rfl⟩

/-- A machine, a pipe and a handle that names nothing, each composed with itself; a pipe's snapshot and clone. -/
theorem witness_UndefinedOperationsAreRefused :
    (∀ us ∈ [[ExecUnit.machine (mach [99] 0)], [.pipe (.machine (mach [99] 0)) (.machine (mach [99] 0))], []],
      (asking us [.compose 0 0]).call = none ∧ (asking us [.compose 0 0]).requests = .compose 0 0 :: []) ∧
    (∀ q ∈ [Request.snapshot 0, Request.clone 0],
      (asking [.pipe (.machine (mach [99] 0)) (.machine (mach [99] 0))] [q]).call = none ∧
      (asking [.pipe (.machine (mach [99] 0)) (.machine (mach [99] 0))] [q]).units[0]? =
        some (some (.pipe (.machine (mach [99] 0)) (.machine (mach [99] 0)))) ∧
      (asking [.pipe (.machine (mach [99] 0)) (.machine (mach [99] 0))] [q]).requests = q :: []) :=
  ⟨fun _ _ => ⟨rfl, rfl⟩, fun _ _ => ⟨rfl, rfl, rfl⟩⟩

theorem witness_NothingHappensBetweenCalls : State.reset.call = none ∧ State.reset.requests = [] := ⟨rfl, rfl⟩

theorem witness_LoadReadsEveryListing :
    ([-9223372036854775808, 0, 9223372036854775807] : List Int) ≠ [] ∧
    ([-9223372036854775808, 0, 9223372036854775807] : List Int).all isWord = true ∧
    [' ', '\t'].all isSpace = true ∧ ['\n'].all isSpace = true := by decide

/-- Both signs of an element. -/
theorem witness_LoadElementIsASignedDecimalWord : readElement ['0', '7'] = some 7 ∧ readElement ['-', '7'] = some (-7) := by
  decide

theorem witness_LoadedImageHasOneCellPerElement : load ['1', ',', '2'] = some [1, 2] := by decide

theorem witness_InvariantHoldsAtReset :
    ([3, 0, 99] : List Int).all isWord = true ∧ ([3, 0, 99] : List Int).length ≤ 2 ^ 63 - 1 := by decide

theorem witness_EveryStepKeepsTheInvariant :
    (running [3, 0, 99] 0 [7]).inv = true ∧ ∃ t, step (running [3, 0, 99] 0 [7]) = .next t :=
  ⟨by decide, _, step_in_call rfl rfl⟩

/-- S5: HLT before cells that are no instructions; and a step on a Finished machine. -/
theorem witness_HaltEndsTheCallForGood :
    (InCycle (running [99, 5000, -3] 0 []) (callOn [99, 5000, -3] 0 []) ∧
      (callOn [99, 5000, -3] 0 []).machine.mem[(callOn [99, 5000, -3] 0 []).machine.pc]? = some 99) ∧
    (∃ s c t c', s.call = some c ∧ c.ended = none ∧ c.machine.runState = .finished ∧ step s = .next t ∧ t.call = some c') :=
  ⟨⟨inCycle _ _ _, rfl⟩,
   { running [99] 0 [] with call := some { callOn [99] 0 [] with machine := machIn [99] 1 .finished } }, _, _, _,
    rfl, rfl, rfl, step_in_call rfl rfl, rfl⟩

/-- A step inside a machine's call; and the hand-over to the second member of a pipe. -/
theorem witness_PipeMembersRunStrictlyInChainOrder :
    (∃ t c', (running [104, 1, 99] 0 []).call = some (callOn [104, 1, 99] 0 []) ∧ (callOn [104, 1, 99] 0 []).ended = none ∧
      step (running [104, 1, 99] 0 []) = .next t ∧ t.call = some c') ∧
    (∃ s c t c', s.call = some c ∧ c.ended = some (.ok [10]) ∧ step s = .next t ∧ t.call = some c') :=
  ⟨⟨_, _, rfl, rfl, step_in_call rfl rfl, rfl⟩,
   { running [99] 1 [] with call := some { callOn [99] 1 [] with
      machine := machIn [99] 1 .finished
      ctx := [.inFirst (.machine (mach [3, 0, 99] 0))]
      ended := some (.ok [10]) } }, _, _, _, rfl, rfl, step_hands_on rfl rfl, rfl⟩

/-- A text that is a program and the empty text, which is none (R236). -/
theorem witness_LoadAnswersTheImageOrTheError :
    (∀ text ∈ [['9', '9'], []],
      (asking [] [.load text]).call = none ∧ (asking [] [.load text]).requests = .load text :: []) ∧
    load ['9', '9'] = some [99] ∧ load [] = none := ⟨fun _ _ => ⟨rfl, rfl⟩, by decide, by decide⟩

end Sys2Proof.Tests
end

section
/-! SUPPORT. The invariant of the whole state, predicate by predicate, and that every step keeps it. -/

namespace Sys2Proof.Machine

/-! ## The clauses of the invariant -/

theorem machineInv_iff {m : MachineState} :
    machineInv m = true ↔
      Memory.wf m.mem = true ∧ m.pc ≤ Config.maxIndex ∧ (m.fault = none ∨ m.runState = .running) := by
  simp [machineInv, and_assoc]

theorem restInv_iff {m : MachineState} :
    restInv m = true ↔ machineInv m = true ∧ (m.runState ≠ .running ∨ m.fault ≠ none ∨ m.pc = 0) := by
  simp [restInv, or_assoc]

theorem unitInv_machine (m : MachineState) : unitInv (.machine m) = restInv m := by
  simp [unitInv, unitMachines]

theorem unitInv_pipe (a b : ExecUnit) : unitInv (.pipe a b) = (unitInv a && unitInv b) := by
  simp [unitInv, unitMachines]

/-- A unit around a member is at rest exactly when the member and every other member of it are. -/
theorem unitInv_plug (u : ExecUnit) (ctx : List Frame) :
    unitInv (plug u ctx) = (unitInv u && ctx.all frameInv) := by
  induction ctx generalizing u with
  | nil => simp [plug]
  | cons f ctx ih =>
    cases f with
    | inFirst b => simp [plug, ih, unitInv_pipe, frameInv, Bool.and_assoc]
    | inSecond a =>
      rw [plug, ih, unitInv_pipe, List.all_cons, frameInv, Bool.and_comm (unitInv a), Bool.and_assoc]

theorem resultInv_ok_iff {m : MachineState} {outputs : List Int} :
    resultInv m (.ok outputs) = true ↔
      outputs.all isWord = true ∧ m.fault = none ∧ m.runState ≠ .running := by
  simp [resultInv, and_assoc]

theorem resultInv_err_iff {m : MachineState} {f : Fault} :
    resultInv m (.err f) = true ↔ m.fault = some f := by
  simp [resultInv]

theorem resultInv_refused_iff {m : MachineState} {q : CallRefusal} :
    resultInv m (.refused q) = true ↔ m.fault = none ∧ m.runState = .finished := by
  cases q
  simp [resultInv]

theorem callInv_iff {c : Call} :
    callInv c = true ↔
      machineInv c.machine = true ∧ c.inq.all isWord = true ∧ c.out.all isWord = true ∧
      c.ctx.all frameInv = true ∧ ∀ r, c.ended = some r → resultInv c.machine r = true := by
  unfold callInv
  cases c.ended <;> simp [and_assoc]

theorem State.inv_iff {s : State} :
    s.inv = true ↔
      (∀ u, some u ∈ s.units → unitInv u = true) ∧ ∀ c, s.call = some c → callInv c = true := by
  unfold State.inv
  rw [Bool.and_eq_true, List.all_eq_true]
  refine and_congr ⟨fun h u hu => h _ hu, fun h u hu => ?_⟩ ?_
  · cases u with
    | none => rfl
    | some u => exact h u hu
  · cases s.call <;> simp

/-! ## What a machine reads, and what it may become -/

theorem isWord_of_getElem? {mem : List Int} {i : Nat} {v : Int} (h : Memory.wf mem = true)
    (hv : mem[i]? = some v) : isWord v = true :=
  (Memory.wf_iff.1 h).1 v (List.mem_of_getElem? hv)

theorem isWord_of_sourceAt {m : MachineState} {mode : Mode} {k : Nat} {v : Int} (h : Memory.wf m.mem = true)
    (hv : SourceAt m mode k v) : isWord v = true := by
  cases mode with
  | immediate => exact isWord_of_getElem? h hv
  | reference =>
    obtain ⟨raw, -, -, hraw⟩ := hv
    exact isWord_of_getElem? h hraw

theorem SourceAt.lt {m : MachineState} {mode : Mode} {k : Nat} {v : Int} (h : SourceAt m mode k v) :
    m.pc + k < m.mem.length := by
  cases mode with
  | immediate => exact OperandAt.lt h
  | reference =>
    obtain ⟨raw, hraw, -⟩ := h
    exact hraw.lt

/-- A Word that is an index is an Index (spec/10_state.md R22). -/
theorem index_le_of_isWord {i : Nat} (h : isWord (i : Int) = true) : i ≤ Config.maxIndex := by
  simp only [isWord, Config.wordMax, Bool.and_eq_true, decide_eq_true_eq] at h
  simp only [Config.maxIndex]
  omega

/-- `pc` after a cell of a memory is an Index: no memory has more cells than there are indices. -/
theorem succ_le_maxIndex {mem : List Int} {i : Nat} (h : Memory.wf mem = true) (hi : i < mem.length) :
    i + 1 ≤ Config.maxIndex :=
  Nat.le_trans hi (Memory.wf_iff.1 h).2

section
variable {m : MachineState} (h : machineInv m = true)
include h

theorem machineInv_setPc {p : Nat} (hp : p ≤ Config.maxIndex) : machineInv (setPc m p) = true := by
  obtain ⟨hmem, -, hfault⟩ := machineInv_iff.1 h
  exact machineInv_iff.2 ⟨hmem, hp, hfault⟩

theorem machineInv_memWrite (i : Nat) {v : Int} (hv : isWord v = true) : machineInv (memWrite m i v) = true := by
  obtain ⟨hmem, hpc, hfault⟩ := machineInv_iff.1 h
  exact machineInv_iff.2 ⟨Memory.wf_memWrite hmem i hv, hpc, hfault⟩

theorem machineInv_setRunState (hf : m.fault = none) (r : RunState) : machineInv (setRunState m r) = true := by
  obtain ⟨hmem, hpc, -⟩ := machineInv_iff.1 h
  exact machineInv_iff.2 ⟨hmem, hpc, .inl hf⟩

theorem machineInv_setFault (hr : m.runState = .running) (f : Fault) : machineInv (setFault m f) = true := by
  obtain ⟨hmem, hpc, -⟩ := machineInv_iff.1 h
  exact machineInv_iff.2 ⟨hmem, hpc, .inr hr⟩

/-- A machine whose call has ended is at rest. -/
theorem restInv_of_resultInv {r : Result} (hr : resultInv m r = true) : restInv m = true := by
  refine restInv_iff.2 ⟨h, ?_⟩
  cases r with
  | ok outputs => exact .inl (resultInv_ok_iff.1 hr).2.2
  | err f => exact .inr (.inl (by simp [resultInv_err_iff.1 hr]))
  | refused q => exact .inl (by simp [(resultInv_refused_iff.1 hr).2])

end

/-! ## The engine's actions on a call -/

/-- The end of a call: nothing is left in its queues, and its machine must be as the result says. -/
theorem callInv_endCall {c : Call} {r : Result} (hm : machineInv c.machine = true)
    (hctx : c.ctx.all frameInv = true) (hr : resultInv c.machine r = true) : callInv (endCall r c) = true :=
  callInv_iff.2 ⟨hm, rfl, rfl, hctx, fun _ h => Option.some.inj h ▸ hr⟩

section
variable {c : Call} (h : callInv c = true)
include h

theorem callInv_raise (hrun : c.machine.runState = .running) (f : Fault) : callInv (raise f c) = true := by
  obtain ⟨hm, -, -, hctx, -⟩ := callInv_iff.1 h
  exact callInv_endCall (machineInv_setFault hm hrun f) hctx (resultInv_err_iff.2 rfl)

/-- Suspension and halt: the call ends with its outputs in a run state that is not Running. -/
theorem callInv_endCall_ok {m : MachineState} (hm : machineInv m = true) (hf : m.fault = none)
    {r : RunState} (hr : r ≠ .running) :
    callInv (endCall (.ok c.out) { c with machine := setRunState m r }) = true := by
  obtain ⟨-, -, hout, hctx, -⟩ := callInv_iff.1 h
  exact callInv_endCall (machineInv_setRunState hm hf r) hctx (resultInv_ok_iff.2 ⟨hout, hf, hr⟩)

/-- The call goes on: its machine and its queues change, it has not ended. -/
theorem callInv_goesOn (he : c.ended = none) {m : MachineState} {inq out : List Int} (hm : machineInv m = true)
    (hinq : inq.all isWord = true) (hout : out.all isWord = true) :
    callInv { c with machine := m, inq := inq, out := out } = true := by
  obtain ⟨-, -, -, hctx, -⟩ := callInv_iff.1 h
  exact callInv_iff.2 ⟨hm, hinq, hout, hctx, fun r hr => by simp [he] at hr⟩

/-- Whatever an operation does, it keeps the invariant of the call. -/
theorem callInv_effect (he : c.ended = none) (hrun : runnable c.machine = true)
    (hpc : c.machine.pc < c.machine.mem.length) {i : Instr} {c' : Call} (hc' : Effect i c c') :
    callInv c' = true := by
  obtain ⟨hm, hinq, hout, -, -⟩ := callInv_iff.1 h
  obtain ⟨hmem, -, -⟩ := machineInv_iff.1 hm
  obtain ⟨hrunning, hfault⟩ := runnable_iff.1 hrun
  cases hc' with
  | raised f _ => exact callInv_raise h hrunning f
  | stored d r _ hd _ hr =>
    exact callInv_goesOn h he
      (machineInv_setPc (machineInv_memWrite hm d hr) (succ_le_maxIndex hmem hd.lt)) hinq hout
  | suspended _ _ _ => exact callInv_endCall_ok h hm hfault (by decide)
  | received _ d x rest _ hq hd _ =>
    rw [hq, List.all_cons, Bool.and_eq_true] at hinq
    obtain ⟨hx, hrest⟩ := hinq
    exact callInv_goesOn h he
      (machineInv_setPc (machineInv_memWrite hm d hx) (succ_le_maxIndex hmem hd.lt)) hrest hout
  | emitted _ v _ hv =>
    exact callInv_goesOn h he (machineInv_setPc hm (succ_le_maxIndex hmem hv.lt)) hinq
      (by simpa [isWord_of_sourceAt hmem hv] using hout)
  | jumped _ _ t p _ ht hp =>
    refine callInv_goesOn h he (machineInv_setPc hm ?_) hinq hout
    rcases hp with rfl | rfl
    · exact index_le_of_isWord (isWord_of_sourceAt hmem ht)
    · exact succ_le_maxIndex hmem ht.lt
  | halted _ =>
    exact callInv_endCall_ok h (machineInv_setPc hm (succ_le_maxIndex hmem hpc)) hfault (by decide)

theorem callInv_cycle (he : c.ended = none) (hrun : runnable c.machine = true) : callInv (cycle c) = true := by
  unfold cycle
  split
  case _ i hi =>
    obtain ⟨v, hv, -⟩ := fetchInstr_ok_iff.1 hi
    exact callInv_effect h he hrun (List.getElem?_eq_some_iff.1 hv).1 (callEffect_cases i c)
  case _ f _ => exact callInv_raise h (runnable_iff.1 hrun).1 f

theorem callInv_enterCall (he : c.ended = none) : callInv (enterCall c) = true := by
  obtain ⟨hm, hinq, hout, hctx, -⟩ := callInv_iff.1 h
  unfold enterCall
  split
  case _ f hf => exact callInv_endCall hm hctx (resultInv_err_iff.2 hf)
  case _ hf =>
    have hrun := callInv_goesOn h he (machineInv_setRunState hm hf .running) hinq hout
    split
    case _ hr => exact callInv_endCall hm hctx (resultInv_refused_iff.2 ⟨hf, hr⟩)
    case _ => exact hrun
    case _ => exact hrun

theorem callInv_engine (he : c.ended = none) : callInv (engine c) = true := by
  unfold engine
  split
  case _ hrun => exact callInv_cycle h he hrun
  case _ => exact callInv_enterCall h he

end

/-! ## A call's way into a unit and back -/

/-- A call that begins on a member of a unit at rest. -/
theorem callInv_openCall {u : ExecUnit} {ctx : List Frame} {input : List Int} (handle : Nat)
    (h : unitInv (plug u ctx) = true) (hinput : input.all isWord = true) :
    callInv (openCall handle u ctx input) = true := by
  rw [← plug_firstMachine, unitInv_plug, unitInv_machine, Bool.and_eq_true] at h
  obtain ⟨hrest, hctx⟩ := h
  exact callInv_iff.2 ⟨(restInv_iff.1 hrest).1, hinput, rfl, hctx, fun _ hr => by cases hr⟩

/-- What comes back to the caller is the whole unit, with the result of the member that returned. -/
theorem handOn_back {u u' : ExecUnit} {r r' : Result} {ctx : List Frame}
    (h : handOn u r ctx = .back u' r') : u' = plug u ctx ∧ r' = r := by
  induction ctx generalizing u with
  | nil => cases h; exact ⟨rfl, rfl⟩
  | cons f ctx ih =>
    cases f with
    | inSecond a => exact ih h
    | inFirst b =>
      cases r with
      | ok mid => cases h
      | err f => exact ih h
      | refused q => exact ih h

/-- The unit of a call that has ended is at rest. -/
theorem unitInv_of_ended {c : Call} {r : Result} (h : callInv c = true) (he : c.ended = some r) :
    unitInv (plug (.machine c.machine) c.ctx) = true := by
  obtain ⟨hm, -, -, hctx, hended⟩ := callInv_iff.1 h
  rw [unitInv_plug, unitInv_machine, hctx, restInv_of_resultInv hm (hended r he)]
  rfl

/-! ## The steps of the whole state -/

section
variable {s : State} (h : s.inv = true)
include h

theorem State.inv_set_call {c : Call} (hc : callInv c = true) : State.inv { s with call := some c } = true := by
  obtain ⟨hunits, -⟩ := State.inv_iff.1 h
  exact State.inv_iff.2 ⟨hunits, fun _ h' => Option.some.inj h' ▸ hc⟩

theorem State.inv_set_unit {u : Option ExecUnit} (hu : ∀ v, u = some v → unitInv v = true) (i : Nat) :
    State.inv { s with units := s.units.set i u } = true := by
  obtain ⟨hunits, hcall⟩ := State.inv_iff.1 h
  refine State.inv_iff.2 ⟨fun v hv => ?_, hcall⟩
  rcases List.mem_or_eq_of_mem_set hv with hv | hv
  · exact hunits v hv
  · exact hu v hv.symm

theorem State.inv_giveUnit {u : ExecUnit} (hu : unitInv u = true) : (giveUnit s u).inv = true := by
  obtain ⟨hunits, hcall⟩ := State.inv_iff.1 h
  refine State.inv_iff.2 ⟨fun v hv => ?_, hcall⟩
  rcases List.mem_append.1 hv with hv | hv
  · exact hunits v hv
  · cases List.mem_singleton.1 hv
    exact hu

theorem State.inv_answer (r : Reply) : (answer s r).inv = true := State.inv_iff.2 (State.inv_iff.1 h)

theorem unitInv_of_unitAt {i : Nat} {u : ExecUnit} (hu : unitAt s i = some u) : unitInv u = true := by
  obtain ⟨hunits, -⟩ := State.inv_iff.1 h
  exact hunits u (List.mem_of_getElem? (Option.join_eq_some_iff.1 hu))

theorem returnCall_keeps_inv {c : Call} {r : Result} (hc : s.call = some c) (he : c.ended = some r) :
    (returnCall s c r).inv = true := by
  have hcall : callInv c = true := (State.inv_iff.1 h).2 c hc
  have hrest := unitInv_of_ended hcall he
  unfold returnCall
  split
  case _ second ctx input hnext =>
    obtain ⟨rfl, -, hplug⟩ := handOn_next hnext
    obtain ⟨-, -, -, -, hended⟩ := callInv_iff.1 hcall
    exact State.inv_set_call h
      (callInv_openCall _ (hplug ▸ hrest) (resultInv_ok_iff.1 (hended _ he)).1)
  case _ u r' hback =>
    obtain ⟨rfl, rfl⟩ := handOn_back hback
    obtain ⟨hunits, -⟩ := State.inv_iff.1 (State.inv_set_unit h (fun _ hu => Option.some.inj hu ▸ hrest) c.handle)
    exact State.inv_iff.2 ⟨hunits, fun _ hnone => by cases hnone⟩

end

/-! ## The caller's operations -/

theorem restInv_new {image : List Int} (hw : image.all isWord = true) (hl : image.length ≤ Config.maxMemLen) :
    restInv (MachineState.new image) = true :=
  restInv_iff.2 ⟨machineInv_iff.2 ⟨Memory.wf_iff.2 ⟨List.all_eq_true.1 hw, hl⟩, Nat.zero_le _, .inl rfl⟩,
    .inr (.inr rfl)⟩

section
variable {s t : State} (h : s.inv = true)
include h

theorem serveLoad_keeps_inv {text : List Char} (ht : serveLoad text s = .next t) : t.inv = true := by
  unfold serveLoad at ht
  split at ht <;> cases ht <;> exact State.inv_answer h _

theorem serveConstruct_keeps_inv {image : List Int} (ht : serveConstruct image s = .next t) : t.inv = true := by
  unfold serveConstruct at ht
  split at ht
  case isTrue hw =>
    split at ht
    case isTrue hl =>
      cases ht
      exact State.inv_giveUnit h (unitInv_machine _ ▸ restInv_new hw hl)
    case isFalse => cases ht
  case isFalse => cases ht

theorem serveClone_keeps_inv {i : Nat} (ht : serveClone i s = .next t) : t.inv = true := by
  unfold serveClone at ht
  split at ht
  case _ m hu =>
    cases ht
    exact State.inv_giveUnit h (unitInv_of_unitAt h hu)
  case _ => cases ht
  case _ => cases ht

theorem serveCompose_keeps_inv {a b : Nat} (ht : serveCompose a b s = .next t) : t.inv = true := by
  unfold serveCompose at ht
  split at ht
  case isTrue => cases ht
  case isFalse =>
    split at ht
    case _ ua ub ha hb =>
      cases ht
      have hpassed := State.inv_set_unit (State.inv_set_unit h (u := none) nofun a) (u := none) nofun b
      refine State.inv_giveUnit hpassed ?_
      rw [unitInv_pipe, unitInv_of_unitAt h ha, unitInv_of_unitAt h hb]
      rfl
    case _ => cases ht

theorem serveExecute_keeps_inv {i : Nat} {input : List Int} (ht : serveExecute i input s = .next t) :
    t.inv = true := by
  unfold serveExecute at ht
  split at ht
  case _ => cases ht
  case _ u hu =>
    split at ht
    case isTrue hw =>
      cases ht
      exact State.inv_set_call (State.inv_set_unit h (u := none) nofun i)
        (callInv_openCall i (ctx := []) (unitInv_of_unitAt h hu) hw)
    case isFalse => cases ht

theorem serveFinished_keeps_inv {i : Nat} (ht : serveFinished i s = .next t) : t.inv = true := by
  unfold serveFinished at ht
  split at ht
  case _ => cases ht; exact State.inv_answer h _
  case _ => cases ht

theorem serveSnapshot_keeps_inv {i : Nat} (ht : serveSnapshot i s = .next t) : t.inv = true := by
  unfold serveSnapshot at ht
  split at ht
  case _ => cases ht; exact State.inv_answer h _
  case _ => cases ht
  case _ => cases ht

theorem perform_keeps_inv {q : Request} (ht : perform q s = .next t) : t.inv = true := by
  cases q with
  | load text => exact serveLoad_keeps_inv h ht
  | construct image => exact serveConstruct_keeps_inv h ht
  | clone i => exact serveClone_keeps_inv h ht
  | compose a b => exact serveCompose_keeps_inv h ht
  | execute i input => exact serveExecute_keeps_inv h ht
  | finished i => exact serveFinished_keeps_inv h ht
  | snapshot i => exact serveSnapshot_keeps_inv h ht

theorem serve_keeps_inv (ht : serve s = .next t) : t.inv = true := by
  unfold serve at ht
  split at ht
  case _ => cases ht; exact h
  case _ q rest _ => exact perform_keeps_inv (s := { s with requests := rest }) h ht

theorem step_keeps_inv (ht : step s = .next t) : t.inv = true := by
  cases hc : s.call with
  | none =>
    rw [step_between_calls hc] at ht
    exact serve_keeps_inv h ht
  | some c =>
    cases he : c.ended with
    | none =>
      rw [step_in_call hc he] at ht
      cases ht
      exact State.inv_set_call h (callInv_engine ((State.inv_iff.1 h).2 c hc) he)
    | some r =>
      rw [step_hands_on hc he] at ht
      cases ht
      exact returnCall_keeps_inv h hc he

end

/-- Settles O53: one case for each kind of step, between calls (`serve_keeps_inv`), in a call (`callInv_engine`) and at the
end of one (`returnCall_keeps_inv`). -/
theorem everyStepKeepsTheInvariant : Obligations.EveryStepKeepsTheInvariant :=
  fun _ _ hs ht => step_keeps_inv hs ht

end Sys2Proof.Machine
end

section
/-! SUPPORT. What a cycle writes and what it leaves (spec/10_state.md R35), read off the things an operation can do
(`Effect`) field by field; the engine's next action; and what a
whole call keeps of every machine of its unit. -/

namespace Sys2Proof.Machine

/-! ## The fields of the call after an operation -/

theorem TakesCallTo.effect {i : Instr} {s : State} {c c' : Call} (h : TakesCallTo i s c c') : Effect i c c' := by
  obtain ⟨hc, t, ht, hc'⟩ := h
  rw [exec_of_call hc] at ht
  cases ht
  cases hc'
  exact callEffect_cases i c

namespace Effect

variable {i : Instr} {c c' : Call} (h : Effect i c c')
include h

theorem place : c'.handle = c.handle ∧ c'.ctx = c.ctx := by
  cases h <;> exact ⟨rfl, rfl⟩

/-- The one cell an operation can write is the one its destination operand names, and a call it writes in goes on. -/
theorem mem_cases : c'.machine.mem = c.machine.mem ∨
    ∃ k, ∃ d : Nat, ∃ v, destinationOperand i = some k ∧ OperandAt c.machine k (d : Int) ∧ c'.ended = c.ended ∧
      c'.machine.mem = c.machine.mem.set d v := by
  cases h with
  | stored d r hi hd => exact .inr ⟨3, d, r, hi, hd, rfl, rfl⟩
  | received m1 d x rest hi _ hd => exact .inr ⟨1, d, x, by rw [hi]; rfl, hd, rfl, rfl⟩
  | raised | suspended | emitted | jumped | halted => exact .inl rfl

theorem mem_length : c'.machine.mem.length = c.machine.mem.length := by
  rcases h.mem_cases with hmem | ⟨-, d, v, -, -, -, hmem⟩
  · rw [hmem]
  · rw [hmem, List.length_set]

/-- A cell that changed is the destination's, and the call goes on. -/
theorem mem_changed {j : Nat} (hj : c'.machine.mem[j]? ≠ c.machine.mem[j]?) :
    ∃ k, destinationOperand i = some k ∧ OperandAt c.machine k (j : Int) ∧ c'.ended = c.ended := by
  rcases h.mem_cases with hmem | ⟨k, d, v, hk, hd, hended, hmem⟩
  · exact absurd (by rw [hmem]) hj
  · by_cases hdj : d = j
    · exact ⟨k, hk, hdj ▸ hd, hended⟩
    · exact absurd (by rw [hmem, List.getElem?_set_ne hdj]) hj

theorem runState_cases : c'.machine.runState = c.machine.runState ∨
    ((∃ m1, i = .inp m1) ∧ c.inq = [] ∧ c'.machine.runState = .awaitingInput) ∨
    (i = .hlt ∧ c'.machine.runState = .finished) := by
  cases h with
  | suspended m1 hi hq => exact .inr (.inl ⟨⟨m1, hi⟩, hq, rfl⟩)
  | halted hi => exact .inr (.inr ⟨hi, rfl⟩)
  | raised | stored | received | emitted | jumped => exact .inl rfl

theorem fault_cases : c'.machine.fault = c.machine.fault ∨
    ∃ f, c'.machine.fault = some f ∧ c'.ended = some (.err f) := by
  cases h with
  | raised f => exact .inr ⟨f, rfl, rfl⟩
  | stored | suspended | received | emitted | jumped | halted => exact .inl rfl

theorem pc_cases : c'.machine.pc = c.machine.pc ∨ c'.ended = c.ended ∨ i = .hlt := by
  cases h with
  | raised | suspended => exact .inl rfl
  | stored | received | emitted | jumped => exact .inr (.inl rfl)
  | halted hi => exact .inr (.inr hi)

/-- While the call goes on, OUT alone appends to the outputs. -/
theorem out_cases (hended : c'.ended = none) : c'.out = c.out ∨ ∃ m1 v, i = .out m1 ∧ c'.out = c.out ++ [v] := by
  cases h with
  | emitted m1 v hi => exact .inr ⟨m1, v, hi, rfl⟩
  | stored | received | jumped => exact .inl rfl
  | raised | suspended | halted => cases hended

/-- While the call goes on, IN alone takes from the input queue, and it takes the front. -/
theorem inq_cases (hended : c'.ended = none) : c'.inq = c.inq ∨ ∃ m1 x, i = .inp m1 ∧ c.inq = x :: c'.inq := by
  cases h with
  | received m1 _ x _ hi hq => exact .inr ⟨m1, x, hi, hq⟩
  | stored | emitted | jumped => exact .inl rfl
  | raised | suspended | halted => cases hended

end Effect

/-! ## The engine's next action -/

/-- Everything the engine can do to a call that has not ended: run the instruction at `pc`, raise what its fetch or decoding
raises, return a latched failure again, refuse a Finished machine, or wake one that waits. -/
theorem engine_cases (c : Call) :
    (runnable c.machine = true ∧
      ∃ v i, c.machine.mem[c.machine.pc]? = some v ∧ decode v = .ok i ∧ Effect i c (engine c)) ∨
    (runnable c.machine = true ∧ ∃ f, fetchInstr c.machine = .error f ∧ engine c = raise f c) ∨
    (∃ f, c.machine.fault = some f ∧ engine c = endCall (.err f) c) ∨
    (c.machine.fault = none ∧ c.machine.runState = .finished ∧
      engine c = endCall (.refused .executeOnFinished) c) ∨
    (c.machine.fault = none ∧ c.machine.runState = .awaitingInput ∧
      engine c = { c with machine := setRunState c.machine .running }) := by
  unfold engine
  split
  case isTrue hrun =>
    unfold cycle
    split
    case _ i hi =>
      obtain ⟨v, hv, hdecode⟩ := fetchInstr_ok_iff.1 hi
      exact .inl ⟨hrun, v, i, hv, hdecode, callEffect_cases i c⟩
    case _ f hf => exact .inr (.inl ⟨hrun, f, hf, rfl⟩)
  case isFalse hrun =>
    unfold enterCall
    split
    case _ f hf => exact .inr (.inr (.inl ⟨f, hf, rfl⟩))
    case _ hf =>
      split
      case _ hfinished => exact .inr (.inr (.inr (.inl ⟨hf, hfinished, rfl⟩)))
      case _ hrunning => exact absurd (runnable_iff.2 ⟨hrunning, hf⟩) hrun
      case _ hawaiting => exact .inr (.inr (.inr (.inr ⟨hf, hawaiting, rfl⟩)))

theorem engine_mem_length (c : Call) : (engine c).machine.mem.length = c.machine.mem.length := by
  rcases engine_cases c with ⟨-, v, i, -, -, heffect⟩ | ⟨-, f, -, h⟩ | ⟨f, -, h⟩ | ⟨-, -, h⟩ | ⟨-, -, h⟩
  · exact heffect.mem_length
  all_goals rw [h]; rfl

/-- A Finished or failed machine is inert (spec/60_exceptions.md R213, R222). -/
theorem engine_machine_of_inert {c : Call} (h : c.machine.runState = .finished ∨ c.machine.fault ≠ none) :
    (engine c).machine = c.machine := by
  have hstopped : ¬ runnable c.machine = true := by
    rw [runnable_iff]
    rintro ⟨hrunning, hfault⟩
    simp [hrunning, hfault] at h
  rcases engine_cases c with ⟨hrun, -⟩ | ⟨hrun, -⟩ | ⟨f, -, heq⟩ | ⟨-, -, heq⟩ | ⟨hfault, hawaiting, -⟩
  · exact absurd hrun hstopped
  · exact absurd hrun hstopped
  · rw [heq]; rfl
  · rw [heq]; rfl
  · simp [hfault, hawaiting] at h

/-! ## Whole calls, machine by machine -/

section
variable {R : MachineState → MachineState → Prop} (hrefl : ∀ m, R m m)
  (htrans : ∀ m₁ m₂ m₃, R m₁ m₂ → R m₂ m₃ → R m₁ m₃)
  (hengine : ∀ c : Call, c.ended = none → R c.machine (engine c).machine)
include hrefl htrans hengine

/-- What every action of the engine keeps of a machine, its whole call keeps. -/
theorem runCall_keeps {fuel : Nat} {c : Call} {r : Result} {m' : MachineState}
    (h : runCall fuel c = some (r, m')) : R c.machine m' := by
  induction fuel generalizing c with
  | zero => cases h
  | succ fuel ih =>
    rw [runCall] at h
    split at h
    case _ => cases h; exact hrefl _
    case _ hended => exact htrans _ _ _ (hengine c hended) (ih h)

/-- What every action of the engine keeps of a machine, a call on a unit keeps of each of its machines, in chain order. -/
theorem execute_keeps {fuel : Nat} {u u' : ExecUnit} {input : List Int} {r : Result}
    (h : execute fuel u input = some (r, u')) : List.Forall₂ R (unitMachines u) (unitMachines u') := by
  induction u generalizing u' input r with
  | machine m =>
    rw [execute] at h
    split at h
    case _ r' m' hrun =>
      cases h
      exact .cons (runCall_keeps hrefl htrans hengine hrun) .nil
    case _ => cases h
  | pipe a b iha ihb =>
    have huncalled : List.Forall₂ R (unitMachines b) (unitMachines b) := List.forall₂_same.2 fun m _ => hrefl m
    rw [execute] at h
    split at h
    case _ => cases h
    case _ ha => cases h; exact List.rel_append (iha ha) huncalled
    case _ ha => cases h; exact List.rel_append (iha ha) huncalled
    case _ ha =>
      split at h
      case _ => cases h
      case _ hb => cases h; exact List.rel_append (iha ha) (ihb hb)

end

/-! ## Reset -/

theorem State.inv_boot {image : List Int} (hw : image.all isWord = true) (hl : image.length ≤ Config.maxMemLen) :
    (State.boot image).inv = true := by
  refine State.inv_iff.2 ⟨fun u hu => ?_, nofun⟩
  cases List.mem_singleton.1 hu
  rw [unitInv_machine]
  exact restInv_new hw hl

/-! ## The statements -/

/-- Settles O21: the effect is the model's own `callEffect`. -/
theorem execDependsOnAndChangesTheCallOnly : Obligations.ExecDependsOnAndChangesTheCallOnly :=
  ⟨callEffect, fun i _ c hc => ⟨exec_of_call hc, (callEffect_cases i c).place⟩, fun _ _ hs => exec_without_call hs⟩

/-- Settles O22: a cell that changes is the one the destination operand names (`Effect.mem_changed`). -/
theorem onlyTheDestinationCellIsWritten : Obligations.OnlyTheDestinationCellIsWritten := by
  intro i s c c' h
  refine ⟨h.effect.mem_length, fun j hj => ?_⟩
  by_contra hchanged
  obtain ⟨k, hk, hoperand, -⟩ := h.effect.mem_changed hchanged
  exact hj k j hk hoperand rfl

/-- Settles O23: each clause is what `Effect` says of one field. -/
theorem oneCycleWritesOnlyWhatIsListed : Obligations.OneCycleWritesOnlyWhatIsListed := by
  intro i s t c c' hc hgoing ht hc'
  have h : Effect i c c' := TakesCallTo.effect ⟨hc, t, ht, hc'⟩
  obtain ⟨hhandle, hctx⟩ := h.place
  rw [exec_of_call hc] at ht
  cases ht
  refine ⟨by cases hc'; rfl, hhandle, hctx, fun j hj => ?_, fun hstate => ?_,
    h.fault_cases.resolve_left, fun hpc => ?_, fun hended => ⟨h.out_cases hended, h.inq_cases hended⟩⟩
  · simpa only [hgoing] using h.mem_changed hj
  · rcases h.runState_cases.resolve_left hstate with ⟨hinp, -, hawaiting⟩ | hhlt
    · exact .inl ⟨hinp, hawaiting⟩
    · exact .inr hhlt
  · simpa only [hgoing] using h.pc_cases.resolve_left hpc

/-- Settles O24: of the things an operation can do, the six that do not fail do only `stored` or `jumped`. -/
theorem arithmeticAndJumpFrame : Obligations.ArithmeticAndJumpFrame := by
  intro i s c c' h _ hended hi
  cases h.effect with
  | stored d r hdest => exact ⟨rfl, rfl, rfl, rfl, fun hnone => by cases hdest.symm.trans hnone⟩
  | jumped => exact ⟨rfl, rfl, rfl, rfl, fun _ => rfl⟩
  | raised | suspended | halted => cases hended
  | received _ _ _ _ hinp => subst hinp; simp [destinationOperand] at hi
  | emitted _ _ hout => subst hout; simp [destinationOperand] at hi

/-- Settles O25: an OUT that does not fail does only `emitted`. -/
theorem outFrame : Obligations.OutFrame := by
  intro m1 s c c' h _ hended
  cases h.effect with
  | emitted => exact ⟨rfl, rfl, rfl, rfl⟩
  | raised | suspended | halted => cases hended
  | stored _ _ hdest => cases hdest
  | received _ _ _ _ hinp => cases hinp
  | jumped _ _ _ _ hjump => simp at hjump

/-- Settles O26: an IN does `received` where its call goes on, and `suspended` where its call returns `Ok`. -/
theorem inFrame : Obligations.InFrame := by
  intro m1 s c c' h hgoing
  cases h.effect with
  | raised f => exact ⟨nofun, nofun⟩
  | suspended _ _ hq =>
    refine ⟨nofun, fun o ho => ?_⟩
    cases ho
    exact ⟨rfl, hq, rfl, rfl, rfl⟩
  | received _ _ x _ _ hq =>
    exact ⟨fun _ => ⟨rfl, rfl, rfl, x, hq⟩, fun o ho => by cases hgoing.symm.trans ho⟩
  | stored _ _ hdest => cases hdest
  | emitted _ _ hout => cases hout
  | jumped _ _ _ _ hjump => simp at hjump
  | halted hhlt => cases hhlt

/-- Settles O28: the clauses are the ways `engine_cases` gives a step of the call; the last is `engine_machine_of_inert`. -/
theorem runStateTransitionsAreTheTabulated : Obligations.RunStateTransitionsAreTheTabulated := by
  intro s t c c' hc hgoing ht hc'
  rw [step_in_call hc hgoing] at ht
  cases ht
  cases hc'
  refine ⟨?_, engine_machine_of_inert⟩
  rcases engine_cases c with ⟨hrun, v, i, hv, hi, heffect⟩ | ⟨-, f, -, h⟩ | ⟨f, -, h⟩ | ⟨-, -, h⟩ | ⟨-, hawaiting, h⟩
  · obtain ⟨hrunning, -⟩ := runnable_iff.1 hrun
    rcases heffect.runState_cases with hsame | ⟨⟨m1, rfl⟩, hq, hawaiting⟩ | ⟨rfl, hfinished⟩
    · exact .inl hsame
    · exact .inr (.inl ⟨hrunning, hawaiting, hq, v, m1, hv, hi⟩)
    · exact .inr (.inr (.inl ⟨hrunning, hfinished, v, hv, hi⟩))
  · rw [h]; exact .inl rfl
  · rw [h]; exact .inl rfl
  · rw [h]; exact .inl rfl
  · rw [h]; exact .inr (.inr (.inr ⟨hawaiting, rfl, rfl, rfl⟩))

/-- Settles O41: every action of the engine keeps the length (`engine_mem_length`), so a call does of each machine. -/
theorem memoryLengthsNeverChange : Obligations.MemoryLengthsNeverChange := by
  intro fuel u u' input r h
  have hlengths := execute_keeps (R := fun m m' => m.mem.length = m'.mem.length) (fun _ => rfl)
    (fun _ _ _ => Eq.trans) (fun c _ => (engine_mem_length c).symm) h
  rw [eq_comm, ← List.forall₂_eq_eq_eq, List.forall₂_map_left_iff, List.forall₂_map_right_iff]
  exact hlengths

/-- Settles O27: HLT does `halted`, for it can raise nothing. -/
theorem hltFrame : Obligations.HltFrame := by
  intro s c c' h
  cases h.effect with
  | halted => exact ⟨rfl, rfl⟩
  | raised f hf => cases hf
  | stored _ _ hdest => cases hdest
  | suspended _ hinp | received _ _ _ _ hinp => cases hinp
  | emitted _ _ hout => cases hout
  | jumped _ _ _ _ hjump => simp at hjump

/-- Settles O51: construction as `State.boot` and `MachineState.new` define it. -/
theorem resetHoldsANewMachine : Obligations.ResetHoldsANewMachine :=
  ⟨fun _ => ⟨rfl, rfl⟩, rfl⟩

/-- Settles O52: a new machine of Words is at rest (`restInv_new`); at reset the image is empty. -/
theorem invariantHoldsAtReset : Obligations.InvariantHoldsAtReset :=
  ⟨State.inv_boot rfl (Nat.zero_le _), fun _ hw hl => State.inv_boot hw hl⟩

end Sys2Proof.Machine
end

section
/-! SUPPORT. Stored instructions (spec/20_memory.md R50): the instruction that a cycle runs is the one that stands at `pc` when it
begins. The order of a pipe's members (R55): where the return of a member leads, by the frames around it. -/

namespace Sys2Proof.Machine

/-! ## The cycle, and an ADD that completes -/

theorem engine_eq_callEffect {c : Call} {v : Int} {i : Instr} (hrun : runnable c.machine = true)
    (hv : c.machine.mem[c.machine.pc]? = some v) (hi : decode v = .ok i) : engine c = callEffect i c := by
  rw [engine, if_pos hrun, cycle, fetchInstr_ok_iff.2 ⟨v, hv, hi⟩]

/-- Where a cycle may run and the cell at `pc` decodes, the step is `exec` of what it decodes to. -/
theorem InCycle.step_eq_exec {s : State} {c : Call} {v : Int} {i : Instr} (h : InCycle s c)
    (hv : c.machine.mem[c.machine.pc]? = some v) (hi : decode v = .ok i) : step s = exec i s := by
  obtain ⟨hcall, hended, hrunning, hfault⟩ := h
  rw [step_in_call hcall hended, engine_eq_callEffect (runnable_iff.2 ⟨hrunning, hfault⟩) hv hi, exec_of_call hcall]

theorem callEffect_add_of_sum {c : Call} {m1 m2 : Mode} {a b : Int} {d : Nat} (ha : SourceAt c.machine m1 1 a)
    (hb : SourceAt c.machine m2 2 b) (hd : OperandAt c.machine 3 (d : Int)) (hlt : d < c.machine.mem.length)
    (hsum : isWord (a + b) = true) :
    callEffect (.add m1 m2 .reference) c =
      { c with machine := setPc (memWrite c.machine d (a + b)) (c.machine.pc + 4) } := by
  have hadd : addResult a b = .ok (a + b) := narrow_ok_iff.2 ⟨hsum, rfl⟩
  rw [callEffect_add, binary_ok_iff.2 ⟨a, b, a + b, d, ha, hb, hd, hadd, rfl, hlt, rfl⟩, settle_ok]

/-! ## The way from one member of a pipe to the next -/

/-- The machine a call on a unit begins with is the unit's first in chain order. -/
theorem head?_unitMachines (u : ExecUnit) (ctx : List Frame) :
    (unitMachines u).head? = some (firstMachine u ctx).1 := by
  induction u generalizing ctx with
  | machine m => rfl
  | pipe a b iha _ => rw [unitMachines, List.head?_append, iha (.inFirst b :: ctx)]; rfl

/-- The call that begins on a unit leaves the tree around it as it is. -/
theorem plug_openCall (h : Nat) (u : ExecUnit) (ctx : List Frame) (xs : List Int) :
    plug (.machine (openCall h u ctx xs).machine) (openCall h u ctx xs).ctx = plug u ctx :=
  plug_firstMachine u ctx

/-- `Ok` passes out of every pipe in which the member was second, to the second member of the innermost pipe in which it stands
in the first. -/
theorem handOn_ok_toSecondMember (u second : ExecUnit) (before : List ExecUnit) (ctx : List Frame) (mid : List Int) :
    ∃ ctx', handOn u (.ok mid) (before.map .inSecond ++ .inFirst second :: ctx) = .next second ctx' mid := by
  induction before generalizing u with
  | nil => exact ⟨_, handOn_inFirst u second mid ctx⟩
  | cons a before ih => exact ih (.pipe a u)

/-- The result of a unit's last member is the result of the whole unit. -/
theorem handOn_lastMember (u : ExecUnit) (r : Result) (before : List ExecUnit) :
    handOn u r (before.map .inSecond) = .back (plug u (before.map .inSecond)) r := by
  induction before generalizing u with
  | nil => rfl
  | cons a before ih => exact ih (.pipe a u)

section
variable {s : State} {c : Call} {r : Result}

theorem returnCall_of_next {second : ExecUnit} {ctx : List Frame} {xs : List Int}
    (h : handOn (.machine c.machine) r c.ctx = .next second ctx xs) :
    returnCall s c r = { s with call := some (openCall c.handle second ctx xs) } := by
  rw [returnCall, h]

theorem returnCall_of_back {u : ExecUnit} {r' : Result} (h : handOn (.machine c.machine) r c.ctx = .back u r') :
    returnCall s c r = { s with
      units := s.units.set c.handle (some u)
      call := none
      replies := s.replies ++ [.executed c.handle r'] } := by
  rw [returnCall, h]

/-- All that is known where a call is in progress after the return of a machine's call: the next machine in chain order has been
called with the outputs of that call, and nothing else changed. -/
theorem returnCall_call_some {c' : Call} (h : (returnCall s c r).call = some c') :
    ∃ second ctx xs, c' = openCall c.handle second ctx xs ∧ (returnCall s c r).units = s.units ∧ r = .ok xs ∧
      chainBefore ctx = chainBefore c.ctx ++ [c.machine] ∧ plug second ctx = plug (.machine c.machine) c.ctx := by
  cases hon : handOn (.machine c.machine) r c.ctx with
  | next second ctx xs =>
    rw [returnCall_of_next hon] at h ⊢
    exact ⟨second, ctx, xs, (Option.some.inj h).symm, rfl, handOn_next hon⟩
  | back u r' =>
    rw [returnCall_of_back hon] at h
    cases h

end

/-! ## The statements -/

/-- Settles O29: the ADD's write is what a read at its new `pc` gives (`memRead_memWrite_same`), so the next cycle runs it. -/
theorem storeIsSeenByTheNextFetch : Obligations.StoreIsSeenByTheNextFetch := by
  intro s c v a b m1 m2 j h hv hadd ha hb hd hlt hsum hj
  obtain ⟨hcall, hended, hrunning, hfault⟩ := id h
  have hstep := h.step_eq_exec hv hadd
  rw [exec_of_call hcall, callEffect_add_of_sum ha hb hd hlt hsum] at hstep
  exact ⟨_, hstep, InCycle.step_eq_exec ⟨rfl, hended, hrunning, hfault⟩ (memRead_memWrite_same hlt (a + b)) hj⟩

/-- Settles O31: a unit's last member hands `Ok` to the second member to come (`handOn_ok_toSecondMember`) or, with none to come, to
the caller (`handOn_lastMember`). -/
theorem pipeHandsOutputsToSecondMember : Obligations.PipeHandsOutputsToSecondMember := by
  intro s c before mid hcall hended
  rw [step_hands_on hcall hended]
  refine ⟨fun second ctx hctx => ?_, fun hctx => ?_⟩
  · obtain ⟨ctx', hnext⟩ := handOn_ok_toSecondMember (.machine c.machine) second before ctx mid
    rw [← hctx] at hnext
    obtain ⟨-, -, hplug⟩ := handOn_next hnext
    refine ⟨openCall c.handle second ctx' mid, ?_, rfl, rfl, rfl, rfl, head?_unitMachines second ctx', ?_⟩
    · rw [returnCall_of_next hnext]
    · rw [plug_openCall, hplug]
  · have hback := handOn_lastMember (.machine c.machine) (.ok mid) before
    rw [← hctx] at hback
    rw [returnCall_of_back hback]

/-- Settles O55: a call that runs keeps its place (`engine_keeps_place`); from one that has ended, `returnCall_call_some` says where
the step leads. -/
theorem pipeMembersRunStrictlyInChainOrder : Obligations.PipeMembersRunStrictlyInChainOrder := by
  intro s t c c' hcall ht hc'
  cases hended : c.ended with
  | none =>
    rw [step_in_call hcall hended] at ht
    cases ht
    cases hc'
    obtain ⟨hhandle, hctx⟩ := engine_keeps_place c
    exact ⟨hhandle, rfl, fun _ => hctx, nofun⟩
  | some r =>
    rw [step_hands_on hcall hended] at ht
    cases ht
    obtain ⟨second, ctx, xs, rfl, hunits, hok, hchain, hplug⟩ := returnCall_call_some hc'
    refine ⟨rfl, hunits, nofun, fun r' hr' => ?_⟩
    cases hr'
    exact ⟨hok, rfl, rfl, (chainBefore_firstMachine second ctx).trans hchain, (plug_openCall ..).trans hplug⟩

end Sys2Proof.Machine
end

section
/-! SUPPORT. The canonical cells (spec/30_encoding.md R66): there are finitely many instructions, so finitely many cells of them. -/

namespace Sys2Proof.Machine

/-- Every mode. -/
def everyMode : List Mode := [.reference, .immediate]

/-- Every instruction, with its operands in every mode. -/
def everyInstr : List Instr :=
  .hlt :: everyMode.flatMap fun a => [.inp a, .out a] ++ everyMode.flatMap fun b => [.jt a b, .jf a b] ++
    everyMode.flatMap fun c => [.add a b c, .mul a b c, .lt a b c, .eq a b c]

@[simp] theorem mem_everyMode (m : Mode) : m ∈ everyMode := by cases m <;> decide

theorem mem_everyInstr (i : Instr) : i ∈ everyInstr := by
  cases i <;> simp [everyInstr]

/-- The cells the encoder gives for the instructions that are well-formed (`wf = true`) or ill-formed (`wf = false`). -/
def canonicalCells (wf : Bool) : List Int := (everyInstr.filter (·.wf = wf)).map encode

theorem mem_canonicalCells {wf : Bool} {v : Int} :
    v ∈ canonicalCells wf ↔ ∃ i : Instr, i.wf = wf ∧ encode i = v := by
  simp [canonicalCells, mem_everyInstr]

/-- Settles O4: the cells of all instructions, computed, are the tabulated ones in another order. -/
theorem canonicalCellsAreTheTabulated : Obligations.CanonicalCellsAreTheTabulated := by
  intro v
  rw [← mem_canonicalCells, ← mem_canonicalCells]
  exact ⟨List.Perm.mem_iff (by decide), List.Perm.mem_iff (by decide)⟩

end Sys2Proof.Machine
end

section
/-! SUPPORT. The loader reads back what the listing shows (spec/30_encoding.md R74, spec/70_reset_and_hazards.md R236): the
ends of the text, the split at the commas, and the decimal form of one cell, each undone by its own reader. -/

namespace Sys2Proof.Machine

/-! ## The ends of the text -/

theorem trim_of_surrounded {before text after : List Char} (hbefore : before.all isSpace = true)
    (htext : ∀ ch ∈ text, isSpace ch = false) (hne : text ≠ []) (hafter : after.all isSpace = true) :
    trim (before ++ text ++ after) = text := by
  have hfront : (before ++ text ++ after).dropWhile isSpace = text ++ after := by
    obtain ⟨ch, rest, rfl⟩ := List.exists_cons_of_ne_nil hne
    rw [List.append_assoc, List.dropWhile_append_of_pos (List.all_eq_true.1 hbefore)]
    exact List.dropWhile_cons_of_neg (by simp [htext ch])
  have hback : (text ++ after).reverse.dropWhile isSpace = text.reverse := by
    rw [List.reverse_append, List.dropWhile_append_of_pos (by simpa using hafter), List.dropWhile_eq_self_iff]
    exact fun hlen => Bool.eq_false_iff.1 (htext _ (List.mem_reverse.1 (List.getElem_mem hlen)))
  rw [trim, hfront, hback, List.reverse_reverse]

/-! ## The split at the commas -/

theorem splitAll_ne_nil (sep : Char) (text : List Char) : splitAll sep text ≠ [] := by
  cases text with
  | nil => simp [splitAll]
  | cons ch rest =>
    rw [splitAll]
    split
    · simp
    · split <;> simp

theorem splitAll_sep_cons (sep : Char) (rest : List Char) : splitAll sep (sep :: rest) = [] :: splitAll sep rest := by
  obtain ⟨part, parts, h⟩ := List.exists_cons_of_ne_nil (splitAll_ne_nil sep rest)
  simp [splitAll, h]

theorem splitAll_cons_of_ne {sep ch : Char} {rest part : List Char} {parts : List (List Char)} (hch : ch ≠ sep)
    (h : splitAll sep rest = part :: parts) : splitAll sep (ch :: rest) = (ch :: part) :: parts := by
  simp [splitAll, h, hch]

theorem splitAll_of_not_mem {sep : Char} {text : List Char} (h : sep ∉ text) : splitAll sep text = [text] := by
  induction text with
  | nil => rfl
  | cons ch rest ih =>
    obtain ⟨hch, hrest⟩ := List.ne_and_not_mem_of_not_mem_cons h
    exact splitAll_cons_of_ne (Ne.symm hch) (ih hrest)

theorem splitAll_append_sep {sep : Char} {part : List Char} (h : sep ∉ part) (rest : List Char) :
    splitAll sep (part ++ sep :: rest) = part :: splitAll sep rest := by
  induction part with
  | nil => exact splitAll_sep_cons sep rest
  | cons ch part ih =>
    obtain ⟨hch, hpart⟩ := List.ne_and_not_mem_of_not_mem_cons h
    exact splitAll_cons_of_ne (Ne.symm hch) (ih hpart)

theorem splitAll_joinCommas {parts : List (List Char)} (hne : parts ≠ []) (h : ∀ part ∈ parts, ',' ∉ part) :
    splitAll ',' (joinCommas parts) = parts := by
  induction parts with
  | nil => exact absurd rfl hne
  | cons part parts ih =>
    obtain ⟨hpart, hparts⟩ := List.forall_mem_cons.1 h
    cases parts with
    | nil => exact splitAll_of_not_mem hpart
    | cons next parts =>
      rw [joinCommas, splitAll_append_sep hpart, ih (List.cons_ne_nil _ _) hparts]
      exact List.cons_ne_nil _ _

theorem forall_mem_joinCommas {P : Char → Prop} (hcomma : P ',') {parts : List (List Char)}
    (h : ∀ part ∈ parts, ∀ ch ∈ part, P ch) : ∀ ch ∈ joinCommas parts, P ch := by
  induction parts using joinCommas.induct with
  | case1 => exact nofun
  | case2 part => exact h part (List.mem_singleton_self part)
  | case3 part parts hne ih =>
    obtain ⟨hpart, hparts⟩ := List.forall_mem_cons.1 h
    rw [joinCommas]
    · exact List.forall_mem_append.2 ⟨hpart, List.forall_mem_cons.2 ⟨hcomma, ih hparts⟩⟩
    · exact hne

theorem joinCommas_ne_nil {part : List Char} {parts : List (List Char)} (h : part ≠ []) : joinCommas (part :: parts) ≠ [] := by
  cases parts with
  | nil => exact h
  | cons next parts => simp [joinCommas]

/-! ## The decimal form of a cell -/

theorem digitValue_ofNat {d : Nat} (h : d < 10) : digitValue (Char.ofNat (48 + d)) = some d := by
  interval_cases d <;> decide

/-- The digits that `showDigits` puts before a text are read as the number they show. -/
theorem readDigits_showDigits {fuel n : Nat} (h : n < fuel) (acc : List Char) :
    readDigits 0 (showDigits fuel n acc) = readDigits n acc := by
  induction fuel generalizing n acc with
  | zero => omega
  | succ fuel ih =>
    have hdigit (start : Nat) :
        readDigits start (Char.ofNat (48 + n % 10) :: acc) = readDigits (10 * start + n % 10) acc := by
      rw [readDigits, digitValue_ofNat (Nat.mod_lt n (by decide))]
    rw [showDigits]
    split
    case isTrue hlt => rw [hdigit, Nat.mul_zero, Nat.zero_add, Nat.mod_eq_of_lt hlt]
    case isFalse hge => rw [ih (by omega), hdigit, Nat.div_add_mod]

theorem showDigits_ne_nil {fuel n : Nat} {acc : List Char} (h : 0 < fuel ∨ acc ≠ []) : showDigits fuel n acc ≠ [] := by
  induction fuel generalizing n acc with
  | zero => simpa [showDigits] using h
  | succ fuel ih =>
    rw [showDigits]
    split
    · simp
    · exact ih (.inr (by simp))

theorem digitValue_of_mem_showDigits {fuel n : Nat} {acc : List Char} (h : ∀ ch ∈ acc, digitValue ch ≠ none) :
    ∀ ch ∈ showDigits fuel n acc, digitValue ch ≠ none := by
  induction fuel generalizing n acc with
  | zero => exact h
  | succ fuel ih =>
    have hcons : ∀ ch ∈ Char.ofNat (48 + n % 10) :: acc, digitValue ch ≠ none :=
      List.forall_mem_cons.2 ⟨by simp [digitValue_ofNat (Nat.mod_lt n (by decide))], h⟩
    rw [showDigits]
    split
    · exact hcons
    · exact ih hcons

theorem digitValue_of_mem_showNat {n : Nat} : ∀ ch ∈ showNat n, digitValue ch ≠ none :=
  digitValue_of_mem_showDigits nofun

theorem showNat_ne_nil (n : Nat) : showNat n ≠ [] := showDigits_ne_nil (.inl n.succ_pos)

theorem readNat_of_ne_nil {text : List Char} (h : text ≠ []) : readNat text = readDigits 0 text := by
  cases text with
  | nil => exact absurd rfl h
  | cons ch rest => rfl

theorem readNat_showNat (n : Nat) : readNat (showNat n) = some n := by
  rw [readNat_of_ne_nil (showNat_ne_nil n), showNat, readDigits_showDigits n.lt_succ_self, readDigits]

theorem readInt_minus {text : List Char} {n : Nat} (h : readNat text = some n) :
    readInt ('-' :: text) = some (-(n : Int)) := by
  simp [readInt, h]

theorem readInt_of_no_minus {text : List Char} {n : Nat} (hminus : '-' ∉ text) (h : readNat text = some n) :
    readInt text = some (n : Int) := by
  rw [readInt]
  · simp [h]
  · rintro rest rfl
    exact hminus List.mem_cons_self

theorem readInt_showInt (v : Int) : readInt (showInt v) = some v := by
  rw [showInt]
  split
  case isTrue hneg =>
    rw [readInt_minus (readNat_showNat _), Int.ofNat_natAbs_of_nonpos hneg.le, neg_neg]
  case isFalse hnonneg =>
    have hminus : '-' ∉ showNat v.natAbs := fun h => digitValue_of_mem_showNat _ h (by decide)
    rw [readInt_of_no_minus hminus (readNat_showNat _), Int.natAbs_of_nonneg (not_lt.1 hnonneg)]

theorem readElement_showInt {v : Int} (h : isWord v = true) : readElement (showInt v) = some v := by
  simp [readElement, readInt_showInt, h]

theorem readElements_map_showInt {image : List Int} (h : ∀ v ∈ image, isWord v = true) :
    readElements (image.map showInt) = some image := by
  induction image with
  | nil => rfl
  | cons v image ih =>
    obtain ⟨hv, himage⟩ := List.forall_mem_cons.1 h
    rw [List.map_cons, readElements, readElement_showInt hv, ih himage]

/-! ## The characters of a listing -/

theorem mem_showInt {v : Int} {ch : Char} (h : ch ∈ showInt v) : ch = '-' ∨ digitValue ch ≠ none := by
  rw [showInt] at h
  split at h
  · exact (List.mem_cons.1 h).imp_right (digitValue_of_mem_showNat ch)
  · exact .inr (digitValue_of_mem_showNat ch h)

theorem showInt_ne_nil (v : Int) : showInt v ≠ [] := by
  rw [showInt]
  split
  · exact List.cons_ne_nil _ _
  · exact showNat_ne_nil _

theorem comma_not_mem_showInt (v : Int) : ',' ∉ showInt v :=
  fun h => absurd (mem_showInt h) (by decide)

theorem isSpace_of_mem_showInt {v : Int} {ch : Char} (h : ch ∈ showInt v) : isSpace ch = false := by
  rw [Bool.eq_false_iff]
  intro hspace
  simp only [isSpace, Bool.or_eq_true, beq_iff_eq] at hspace
  obtain ((rfl | rfl) | rfl) | rfl := hspace <;> exact absurd (mem_showInt h) (by decide)

theorem isSpace_of_mem_listing {image : List Int} : ∀ ch ∈ listing image, isSpace ch = false :=
  forall_mem_joinCommas (by decide) (List.forall_mem_map.2 fun _ _ _ => isSpace_of_mem_showInt)

theorem listing_ne_nil {image : List Int} (h : image ≠ []) : listing image ≠ [] := by
  obtain ⟨v, rest, rfl⟩ := List.exists_cons_of_ne_nil h
  exact joinCommas_ne_nil (showInt_ne_nil v)

/-- Settles O48: the trim leaves the listing, the split its elements, and each element is read as its cell. -/
theorem loadReadsEveryListing : Obligations.LoadReadsEveryListing := by
  intro image before after hne hwords hbefore hafter
  have helements : splitAll ',' (listing image) = image.map showInt :=
    splitAll_joinCommas (by simpa using hne) (List.forall_mem_map.2 fun v _ => comma_not_mem_showInt v)
  rw [load, trim_of_surrounded hbefore isSpace_of_mem_listing (listing_ne_nil hne) hafter, helements]
  exact readElements_map_showInt (List.all_eq_true.1 hwords)

end Sys2Proof.Machine
end

section
/-! SUPPORT. The decoder (spec/40_decoder.md R84): once the two low digits are an operation's opcode, what it answers is that
operation with the modes that the digits above stand for, read operand by operand. -/

namespace Sys2Proof

/-- The same operation with the modes `modes`; the same instruction where there are not as many as it has operands. -/
def Instr.withModes (i : Instr) (modes : List Mode) : Instr :=
  match i, modes with
  | .add _ _ _, [a, b, c] => .add a b c
  | .mul _ _ _, [a, b, c] => .mul a b c
  | .inp _, [a] => .inp a
  | .out _, [a] => .out a
  | .jt _ _, [a, b] => .jt a b
  | .jf _ _, [a, b] => .jf a b
  | .lt _ _ _, [a, b, c] => .lt a b c
  | .eq _ _ _, [a, b, c] => .eq a b c
  | i, _ => i

theorem Instr.opcode_withModes (i : Instr) (modes : List Mode) : (i.withModes modes).opcode = i.opcode := by
  unfold withModes
  split <;> rfl

theorem Instr.withModes_modes (i : Instr) : i.withModes i.modes = i := by cases i <;> rfl

theorem Instr.modes_withModes {i : Instr} {modes : List Mode} (h : modes.length = i.count) :
    (i.withModes modes).modes = modes := by
  cases i with
  | add | mul | lt | eq => obtain ⟨a, b, c, rfl⟩ := List.length_eq_three.1 h; rfl
  | jt | jf => obtain ⟨a, b, rfl⟩ := List.length_eq_two.1 h; rfl
  | inp | out => obtain ⟨a, rfl⟩ := List.length_eq_one_iff.1 h; rfl
  | hlt => exact (List.length_eq_zero_iff.1 h).symm

theorem Instr.opcode_lt (i : Instr) : i.opcode < 100 := by cases i <;> simp [opcode]

theorem Instr.count_le (i : Instr) : i.count ≤ 3 := by cases i <;> simp [count, modes]

theorem Mode.digit_lt (mode : Mode) : mode.digit < 2 := by cases mode <;> decide

end Sys2Proof

namespace Sys2Proof.Machine

/-! ## The mode of one operand, and the modes of several in operand order -/

theorem modeOf_ok_iff {v k : Nat} {mode : Mode} : modeOf v k = .ok mode ↔ digit v (k + 1) = mode.digit := by
  rw [modeOf, modeOfDigit]
  cases mode <;> split_ifs <;> simp_all [Mode.digit]

theorem modeOf_error_iff {v k : Nat} {e : DecodeError} :
    modeOf v k = .error e ↔ e = .invalidParameterMode ∧ 2 ≤ digit v (k + 1) := by
  rw [modeOf, modeOfDigit]
  split_ifs <;> simp [eq_comm (a := e)] <;> omega

/-- The modes of `n` operands, operand `k` first. -/
def readModes (v k : Nat) : Nat → Except DecodeError (List Mode)
  | 0 => pure []
  | n + 1 => do
    let mode ← modeOf v k
    (mode :: ·) <$> readModes v (k + 1) n

theorem readModes_succ_of_error {v k : Nat} {e : DecodeError} (h : modeOf v k = .error e) (n : Nat) :
    readModes v k (n + 1) = .error e := by
  rw [readModes, h]; rfl

theorem readModes_succ_of_ok {v k : Nat} {mode : Mode} (h : modeOf v k = .ok mode) (n : Nat) :
    readModes v k (n + 1) = (mode :: ·) <$> readModes v (k + 1) n := by
  rw [readModes, h]; rfl

theorem map_ok_iff {α β : Type} {x : Except DecodeError α} {g : α → β} {b : β} :
    g <$> x = .ok b ↔ ∃ a, x = .ok a ∧ g a = b := by
  cases x <;> simp [Functor.map, Except.map]

theorem map_error_iff {α β : Type} {x : Except DecodeError α} {g : α → β} {e : DecodeError} :
    g <$> x = .error e ↔ x = .error e := by
  cases x <;> simp [Functor.map, Except.map]

theorem readModes_succ_ok_iff {v k n : Nat} {modes : List Mode} :
    readModes v k (n + 1) = .ok modes ↔
      ∃ mode rest, mode :: rest = modes ∧ modeOf v k = .ok mode ∧ readModes v (k + 1) n = .ok rest := by
  cases h : modeOf v k with
  | error e => simp [readModes_succ_of_error h]
  | ok mode =>
    rw [readModes_succ_of_ok h, map_ok_iff]
    simp [and_comm]

/-- The digit of the operand after operand `j`, counted from operand `k`, is that of operand `j`, counted from operand `k + 1`. -/
theorem digit_next_operand (v j k : Nat) : digit v (j + 1 + (k + 1)) = digit v (j + (k + 1 + 1)) := by
  rw [Nat.add_right_comm, Nat.add_assoc]

theorem readModes_ok_iff {v k n : Nat} {modes : List Mode} :
    readModes v k n = .ok modes ↔
      modes.length = n ∧ ∀ j mode, modes[j]? = some mode → digit v (j + (k + 1)) = mode.digit := by
  induction n generalizing k modes with
  | zero => cases modes <;> simp [readModes, pure, Except.pure]
  | succ n ih =>
    rw [readModes_succ_ok_iff]
    cases modes with
    | nil => simp
    | cons mode rest =>
      rw [← Nat.and_forall_add_one]
      simp [digit_next_operand, modeOf_ok_iff, ih, and_left_comm]

theorem readModes_error_iff {v k n : Nat} {e : DecodeError} :
    readModes v k n = .error e ↔ e = .invalidParameterMode ∧ ∃ j < n, 2 ≤ digit v (j + (k + 1)) := by
  induction n generalizing k with
  | zero => simp [readModes, pure, Except.pure]
  | succ n ih =>
    rw [Nat.exists_lt_succ_left]
    simp only [digit_next_operand, Nat.zero_add]
    cases h : modeOf v k with
    | error e' =>
      obtain ⟨rfl, hbad⟩ := modeOf_error_iff.1 h
      simp [readModes_succ_of_error h, hbad, eq_comm (a := e)]
    | ok mode =>
      have hgood : ¬ 2 ≤ digit v (k + 1) := modeOf_ok_iff.1 h ▸ mode.digit_lt.not_ge
      rw [readModes_succ_of_ok h, map_error_iff, ih, or_iff_right hgood]

/-! ## The operation, and what the decoder answers for its opcode -/

/-- The opcodes of the nine operations (spec/30_encoding.md R64). -/
def opcodes : List Nat := [1, 2, 3, 4, 5, 6, 7, 8, 99]

theorem mem_opcodes_iff {n : Nat} : n ∈ opcodes ↔ ∃ i : Instr, n = i.opcode := by
  constructor
  · have hall : ∀ n ∈ opcodes, ∃ i ∈ everyInstr, n = i.opcode := by decide
    exact fun h => (hall n h).imp fun _ => And.right
  · rintro ⟨i, rfl⟩
    cases i <;> simp [opcodes, Instr.opcode]

theorem decodeNat_of_opcode {v : Nat} {i : Instr} (h : v % 100 = i.opcode) :
    decodeNat v = i.withModes <$> readModes v 1 i.count := by
  unfold decodeNat
  rw [h]
  cases i with
  | hlt => rfl
  | inp | out => simp [decodeF1, readModes, Instr.count, Instr.modes, Instr.opcode, Instr.withModes]
  | jt | jf => simp [decodeF2, readModes, Instr.count, Instr.modes, Instr.opcode, Instr.withModes]
  | add | mul | lt | eq => simp [decodeF3, readModes, Instr.count, Instr.modes, Instr.opcode, Instr.withModes]

theorem decodeNat_of_no_opcode {v : Nat} (h : v % 100 ∉ opcodes) :
    decodeNat v = .error .invalidOpCode := by
  unfold decodeNat
  split <;> simp_all [opcodes]

theorem decode_of_neg {v : Int} (h : v < 0) : decode v = .error .invalidOpCode := if_pos h

theorem decode_of_nonneg {v : Int} (h : 0 ≤ v) : decode v = decodeNat v.toNat := if_neg (not_lt.2 h)

/-- All that the decoder can do with a cell that is not negative. -/
theorem decodeNat_cases (v : Nat) :
    (∃ i : Instr, v % 100 = i.opcode ∧ decodeNat v = i.withModes <$> readModes v 1 i.count) ∨
    (v % 100 ∉ opcodes ∧ decodeNat v = .error .invalidOpCode) := by
  by_cases h : v % 100 ∈ opcodes
  · exact .inl ((mem_opcodes_iff.1 h).imp fun _ hi => ⟨hi, decodeNat_of_opcode hi⟩)
  · exact .inr ⟨h, decodeNat_of_no_opcode h⟩

theorem opcode_of_decodeNat_ok {v : Nat} {i : Instr} (h : decodeNat v = .ok i) : v % 100 = i.opcode := by
  obtain ⟨j, hj, hdecode⟩ | ⟨-, hdecode⟩ := decodeNat_cases v
  · rw [hdecode, map_ok_iff] at h
    obtain ⟨modes, -, rfl⟩ := h
    rw [hj, Instr.opcode_withModes]
  · rw [hdecode] at h
    cases h

theorem decodeNat_ok_iff {v : Nat} {i : Instr} :
    decodeNat v = .ok i ↔ v % 100 = i.opcode ∧ readModes v 1 i.count = .ok i.modes := by
  rw [← and_iff_right_of_imp opcode_of_decodeNat_ok, and_congr_right_iff]
  intro hop
  rw [decodeNat_of_opcode hop, map_ok_iff]
  constructor
  · rintro ⟨modes, hmodes, hi⟩
    rw [hmodes, ← hi, Instr.modes_withModes (readModes_ok_iff.1 hmodes).1]
  · exact fun hmodes => ⟨i.modes, hmodes, i.withModes_modes⟩

theorem decodeNat_invalidOpCode_iff {v : Nat} :
    decodeNat v = .error .invalidOpCode ↔ v % 100 ∉ opcodes := by
  refine ⟨fun h hmem => ?_, decodeNat_of_no_opcode⟩
  obtain ⟨i, hi⟩ := mem_opcodes_iff.1 hmem
  rw [decodeNat_of_opcode hi, map_error_iff, readModes_error_iff] at h
  cases h.1

theorem decodeNat_invalidParameterMode_iff {v : Nat} :
    decodeNat v = .error .invalidParameterMode ↔
      ∃ i : Instr, v % 100 = i.opcode ∧ ∃ k < i.count, 2 ≤ digit v (k + 2) := by
  have hiff {i : Instr} (hi : v % 100 = i.opcode) :
      decodeNat v = .error .invalidParameterMode ↔ ∃ k < i.count, 2 ≤ digit v (k + 2) := by
    rw [decodeNat_of_opcode hi, map_error_iff, readModes_error_iff, and_iff_right rfl]
  refine ⟨fun h => ?_, fun ⟨i, hi, hbad⟩ => (hiff hi).2 hbad⟩
  obtain ⟨i, hi, -⟩ | ⟨-, hdecode⟩ := decodeNat_cases v
  · exact ⟨i, hi, (hiff hi).1 h⟩
  · rw [hdecode] at h
    cases h

/-! ## The digits of an encoded instruction -/

/-- Above its `j` low digits `n`, a number has the digits of the number `m` that stands there. -/
theorem digit_add_pow_mul {n j : Nat} (h : n < 10 ^ j) (m k : Nat) : digit (n + 10 ^ j * m) (k + j) = digit m k := by
  rw [digit, Nat.pow_add', ← Nat.div_div_eq_div_mul, Nat.add_mul_div_left _ _ (by positivity), Nat.div_eq_of_lt h,
    Nat.zero_add, digit]

theorem digit_encodeModes {modes : List Mode} {k : Nat} {mode : Mode} (h : modes[k]? = some mode) (r : Nat) :
    digit (encodeModes modes + 10 ^ modes.length * r) k = mode.digit := by
  induction modes generalizing k with
  | nil => cases h
  | cons m modes ih =>
    have hlow : m.digit < 10 := m.digit_lt.trans (by decide)
    have hcons : encodeModes (m :: modes) + 10 ^ (m :: modes).length * r =
        m.digit + 10 ^ 1 * (encodeModes modes + 10 ^ modes.length * r) := by
      rw [encodeModes, List.length_cons]; ring
    rw [hcons]
    cases k with
    | zero =>
      cases h
      rw [digit, pow_zero, Nat.div_one, pow_one, Nat.add_mul_mod_self_left, Nat.mod_eq_of_lt hlow]
    | succ k => rw [digit_add_pow_mul hlow, ih h]

/-- The encoded instruction below the digits of `rest`: the opcode, and from the hundreds digit on the mode digits below the rest. -/
theorem encode_add_rest (i : Instr) (rest : Nat) :
    ∃ r, encode i + 100000 * (rest : Int) = ((i.opcode + 100 * (encodeModes i.modes + 10 ^ i.count * r) : Nat) : Int) := by
  refine ⟨10 ^ (3 - i.count) * rest, ?_⟩
  rw [← mul_assoc, ← pow_add, Nat.add_sub_of_le i.count_le, encode]
  push_cast
  ring

/-! ## The statements -/

/-- Settles O1: the modes read from the digits are the instruction's (`readModes_ok_iff`), of which there are as many. -/
theorem decoderReadsExactlyItsDigits : Obligations.DecoderReadsExactlyItsDigits := by
  intro v i
  rcases lt_or_ge v 0 with hneg | hnonneg
  · simp [decode_of_neg hneg, hneg.not_ge]
  · rw [decode_of_nonneg hnonneg, decodeNat_ok_iff, readModes_ok_iff]
    exact ⟨fun ⟨hop, _, hmodes⟩ => ⟨hnonneg, hop, hmodes⟩, fun ⟨_, hop, hmodes⟩ => ⟨hop, rfl, hmodes⟩⟩

/-- Settles O2: a cell that is not negative fails by its opcode or, where that is one, by a mode digit. -/
theorem decoderFailsExactlyWhereTabulated : Obligations.DecoderFailsExactlyWhereTabulated := by
  intro v
  rcases lt_or_ge v 0 with hneg | hnonneg
  · simp [decode_of_neg hneg, hneg, hneg.not_ge]
  · rw [decode_of_nonneg hnonneg, decodeNat_invalidOpCode_iff, decodeNat_invalidParameterMode_iff]
    exact ⟨(or_iff_right hnonneg.not_gt).symm, (and_iff_right hnonneg).symm⟩

/-- Settles O3: the cell's digits are the encoder's (`encode_add_rest`, `digit_encodeModes`), so the decoder reads `i` (O1). -/
theorem decodeUndoesEncode : Obligations.DecodeUndoesEncode := by
  intro i rest
  obtain ⟨r, hcell⟩ := encode_add_rest i rest
  rw [hcell, decoderReadsExactlyItsDigits, Int.toNat_natCast]
  refine ⟨Int.natCast_nonneg _, ?_, fun k mode h => ?_⟩
  · rw [Nat.add_mul_mod_self_left, Nat.mod_eq_of_lt i.opcode_lt]
  · exact (digit_add_pow_mul (j := 2) i.opcode_lt _ k).trans (digit_encodeModes h r)

/-- Settles O5: the rows of the table, computed. -/
theorem sampleCellsDecodeAsTabulated : Obligations.SampleCellsDecodeAsTabulated := by
  unfold Obligations.SampleCellsDecodeAsTabulated
  decide

end Sys2Proof.Machine
end

section
/-! SUPPORT. The execution engine (spec/42_execution_engine.md): what its next action on a call is (R117, R119, R127), the fuel of
`execute` (R132), the ways a machine's call ends (R129), and the resumability law (R125). -/

namespace Sys2Proof.Machine

/-! ## The engine's next action, case by case -/

/-- Where a cycle may run and its fetch or decoding fails, the step takes the failure entry. -/
theorem InCycle.step_eq_raise {s : State} {c : Call} {f : Fault} (h : InCycle s c)
    (hf : fetchInstr c.machine = .error f) : step s = .next { s with call := some (raise f c) } := by
  obtain ⟨hcall, hended, hrunning, hfault⟩ := h
  rw [step_in_call hcall hended, engine, if_pos (runnable_iff.2 ⟨hrunning, hfault⟩), cycle, hf]

/-- A machine that waits becomes Running, and nothing else happens in that action. -/
theorem engine_wakes {c : Call} (hfault : c.machine.fault = none) (hawaiting : c.machine.runState = .awaitingInput) :
    engine c = { c with machine := setRunState c.machine .running } := by
  simp [engine, runnable, enterCall, hfault, hawaiting]

/-- A call that returns `Ok` and leaves its machine waiting has met an IN with an empty queue. -/
theorem engine_eq_suspend {c : Call} {o : List Int} (hgoing : c.ended = none) (hok : (engine c).ended = some (.ok o))
    (hawaiting : (engine c).machine.runState = .awaitingInput) :
    engine c = suspend c ∧ c.inq = [] ∧ c.machine.runState = .running := by
  rcases engine_cases c with ⟨hrun, v, i, -, -, heffect⟩ | ⟨-, f, -, h⟩ | ⟨f, -, h⟩ | ⟨-, -, h⟩ | ⟨-, -, h⟩
  · generalize engine c = c' at *
    cases heffect with
    | suspended _ _ hq => exact ⟨rfl, hq, (runnable_iff.1 hrun).1⟩
    | raised => cases hok
    | halted => cases hawaiting
    | stored | received | emitted | jumped => cases hgoing.symm.trans hok
  all_goals rw [h] at hok
  · cases hok
  · cases hok
  · cases hok
  · cases hgoing.symm.trans hok

/-! ## Fuel -/

theorem runCall_going {c : Call} (h : c.ended = none) (fuel : Nat) : runCall (fuel + 1) c = runCall fuel (engine c) := by
  rw [runCall, h]

theorem runCall_ended {c : Call} {r : Result} (h : c.ended = some r) (fuel : Nat) :
    runCall (fuel + 1) c = some (r, c.machine) := by
  rw [runCall, h]

/-- What is seen of a call that has ended is its result and its machine. -/
theorem eq_of_runCall_ended {fuel : Nat} {c : Call} {r r' : Result} {m' : MachineState} (h : c.ended = some r)
    (hrun : runCall fuel c = some (r', m')) : r' = r ∧ m' = c.machine := by
  cases fuel with
  | zero => cases hrun
  | succ fuel =>
    rw [runCall_ended h] at hrun
    cases hrun
    exact ⟨rfl, rfl⟩

theorem runCall_mono {fuel more : Nat} {c : Call} {x : Result × MachineState} (h : runCall fuel c = some x)
    (hle : fuel ≤ more) : runCall more c = some x := by
  induction fuel generalizing more c with
  | zero => cases h
  | succ fuel ih =>
    obtain ⟨more, rfl⟩ := Nat.exists_eq_add_one.2 (Nat.lt_of_lt_of_le fuel.succ_pos hle)
    cases hended : c.ended with
    | none =>
      rw [runCall_going hended] at h ⊢
      exact ih h (Nat.le_of_succ_le_succ hle)
    | some r =>
      rw [runCall_ended hended] at h ⊢
      exact h

theorem execute_machine_iff {fuel : Nat} {m : MachineState} {input : List Int} {r : Result} {u' : ExecUnit} :
    execute fuel (.machine m) input = some (r, u') ↔
      ∃ m', runCall fuel (openCall 0 (.machine m) [] input) = some (r, m') ∧ u' = .machine m' := by
  rw [execute]
  split
  case _ r' m' h => simp [h, eq_comm]
  case _ h => simp [h]

/-- A call on a pipe that returns: its first member returned, `Ok` and then the second member returned too, or not `Ok`. -/
theorem execute_pipe_iff {fuel : Nat} {a b : ExecUnit} {input : List Int} {r : Result} {u' : ExecUnit} :
    execute fuel (.pipe a b) input = some (r, u') ↔
      (∃ mid a' b', execute fuel a input = some (.ok mid, a') ∧ execute fuel b mid = some (r, b') ∧ u' = .pipe a' b') ∨
      (∃ a', execute fuel a input = some (r, a') ∧ (∀ mid, r ≠ .ok mid) ∧ u' = .pipe a' b) := by
  rw [execute]
  split
  case _ h => simp [h]
  case _ f a' h => grind
  case _ q a' h => grind
  case _ mid a' h =>
    split
    case _ hb => grind
    case _ r' b' hb => grind

theorem execute_mono {fuel more : Nat} {u u' : ExecUnit} {input : List Int} {r : Result} (hle : fuel ≤ more)
    (h : execute fuel u input = some (r, u')) : execute more u input = some (r, u') := by
  induction u generalizing u' input r with
  | machine m =>
    obtain ⟨m', hrun, rfl⟩ := execute_machine_iff.1 h
    exact execute_machine_iff.2 ⟨m', runCall_mono hrun hle, rfl⟩
  | pipe a b iha ihb =>
    obtain ⟨mid, a', b', ha, hb, rfl⟩ | ⟨a', ha, hnot, rfl⟩ := execute_pipe_iff.1 h
    · exact execute_pipe_iff.2 (.inl ⟨mid, a', b', iha ha, ihb hb, rfl⟩)
    · exact execute_pipe_iff.2 (.inr ⟨a', iha ha, hnot, rfl⟩)

/-! ## The ways a machine's call ends -/

/-- A call on the machine `m` ends with this result and leaves this machine (spec/42_execution_engine.md R129). -/
inductive CallEnd (m : MachineState) : Result → MachineState → Prop
  | suspended (outputs : List Int) {m' : MachineState} (hfault : m'.fault = none)
      (hstate : m'.runState = .awaitingInput) : CallEnd m (.ok outputs) m'
  | halted (outputs : List Int) {m' : MachineState} (hfault : m'.fault = none)
      (hstate : m'.runState = .finished) : CallEnd m (.ok outputs) m'
  | failed (f : Fault) {m' : MachineState} (hfault : m'.fault = some f) (hbefore : m.fault = none) :
      CallEnd m (.err f) m'
  | failedBefore (f : Fault) (hbefore : m.fault = some f) : CallEnd m (.err f) m
  | refused (hbefore : m.fault = none) (hstate : m.runState = .finished) : CallEnd m (.refused .executeOnFinished) m

/-- No call ends while its machine could execute another instruction. -/
theorem CallEnd.not_runnable {m m' : MachineState} {r : Result} (h : CallEnd m r m') : runnable m' = false := by
  cases h <;> simp_all [runnable]

/-- A call that went on to a machine that may run a cycle ends as the call from there does. -/
theorem CallEnd.of_runnable {m m₁ m' : MachineState} {r : Result} (hfault : m.fault = none)
    (hrun : runnable m₁ = true) (h : CallEnd m₁ r m') : CallEnd m r m' := by
  obtain ⟨hrunning, hnone⟩ := runnable_iff.1 hrun
  cases h with
  | suspended o hf hs => exact .suspended o hf hs
  | halted o hf hs => exact .halted o hf hs
  | failed f hf => exact .failed f hf hfault
  | failedBefore f hf => cases hnone.symm.trans hf
  | refused _ hs => cases hrunning.symm.trans hs

/-- After one action of the engine the call goes on, with a machine that may run a cycle, or it has ended in one of the ways. -/
theorem engine_goes_on_or_ends {c : Call} (hgoing : c.ended = none) :
    ((engine c).ended = none ∧ runnable (engine c).machine = true ∧ c.machine.fault = none) ∨
    ∃ r, (engine c).ended = some r ∧ CallEnd c.machine r (engine c).machine := by
  rcases engine_cases c with ⟨hrun, v, i, -, -, heffect⟩ | ⟨hrun, f, -, h⟩ | ⟨f, hf, h⟩ | ⟨hf, hs, h⟩ | ⟨hf, -, h⟩
  · obtain ⟨-, hfault⟩ := runnable_iff.1 hrun
    generalize engine c = c' at *
    cases heffect with
    | stored | received | emitted | jumped => exact .inl ⟨hgoing, hrun, hfault⟩
    | raised f => exact .inr ⟨_, rfl, .failed f rfl hfault⟩
    | suspended => exact .inr ⟨_, rfl, .suspended _ hfault rfl⟩
    | halted => exact .inr ⟨_, rfl, .halted _ hfault rfl⟩
  · rw [h]; exact .inr ⟨_, rfl, .failed f rfl (runnable_iff.1 hrun).2⟩
  · rw [h]; exact .inr ⟨_, rfl, .failedBefore f hf⟩
  · rw [h]; exact .inr ⟨_, rfl, .refused hf hs⟩
  · rw [h]; exact .inl ⟨hgoing, runnable_iff.2 ⟨rfl, hf⟩, hf⟩

theorem callEnd_of_runCall {fuel : Nat} {c : Call} {r : Result} {m' : MachineState} (hgoing : c.ended = none)
    (h : runCall fuel c = some (r, m')) : CallEnd c.machine r m' := by
  induction fuel generalizing c with
  | zero => cases h
  | succ fuel ih =>
    rw [runCall_going hgoing] at h
    obtain ⟨hnext, hrun, hfault⟩ | ⟨r', hended, hend⟩ := engine_goes_on_or_ends hgoing
    · exact (ih hnext h).of_runnable hfault hrun
    · obtain ⟨rfl, rfl⟩ := eq_of_runCall_ended hended h
      exact hend

/-! ## A call inside a longer one

The resumability law compares calls that differ in what was emitted before them and in what is left to read after them. One
commuting square, `engine_widen`, says what that difference does to an action of the engine. -/

/-- The result with the outputs `os` before its own. -/
def Result.prepend (os : List Int) : Result → Result
  | .ok out => .ok (os ++ out)
  | .err f => .err f
  | .refused q => .refused q

/-- The call `c` as a part of a longer one, in which `os` was emitted before and `ys` can be read after what `c` can. -/
def widen (os ys : List Int) (c : Call) : Call :=
  match c.ended with
  | none => { c with inq := c.inq ++ ys, out := os ++ c.out }
  | some r => { c with ended := some (r.prepend os) }

section
variable (os ys : List Int) {c : Call}

theorem widen_ended {r : Result} (h : c.ended = some r) : widen os ys c = { c with ended := some (r.prepend os) } := by
  rw [widen, h]

@[simp] theorem widen_machine (c : Call) : (widen os ys c).machine = c.machine := by
  rw [widen]; split <;> rfl

theorem widen_endCall (r : Result) (c : Call) : widen os ys (endCall r c) = endCall (r.prepend os) c := rfl

theorem widen_raise (f : Fault) (c : Call) : widen os ys (raise f c) = raise f c := rfl

variable (hgoing : c.ended = none)
include hgoing

theorem widen_going : widen os ys c = { c with inq := c.inq ++ ys, out := os ++ c.out } := by
  rw [widen, hgoing]

theorem raise_widen (f : Fault) : raise f (widen os ys c) = widen os ys (raise f c) := by
  rw [widen_going os ys hgoing, widen_raise]; rfl

theorem settle_widen (r : Except Fault MachineState) : settle (widen os ys c) r = widen os ys (settle c r) := by
  cases r with
  | ok m => simp [settle_ok, widen, hgoing]
  | error f => exact raise_widen os ys hgoing f

theorem outputEffect_widen (m1 : Mode) : outputEffect m1 (widen os ys c) = widen os ys (outputEffect m1 c) := by
  rw [outputEffect, outputEffect, widen_machine]
  cases sourceOperand c.machine m1 1 with
  | error f => exact raise_widen os ys hgoing f
  | ok v => simp [widen, hgoing]

/-- IN is the one operation that sees the difference: where it suspends, it does not if there is more to read. -/
theorem inputEffect_widen (m1 : Mode) (hread : ys = [] ∨ (inputEffect m1 c).ended = none) :
    inputEffect m1 (widen os ys c) = widen os ys (inputEffect m1 c) := by
  rw [inputEffect, inputEffect, widen_machine]
  cases hraw : operandCell c.machine 1 with
  | error f => exact raise_widen os ys hgoing f
  | ok raw =>
    cases hq : c.inq with
    | nil =>
      obtain rfl : ys = [] := hread.resolve_right (by simp [inputEffect, hraw, hq])
      simp only [widen_going os [] hgoing, hq, List.append_nil]
      rfl
    | cons x rest =>
      rw [← settle_widen os ys (c := { c with inq := rest }) hgoing]
      simp [widen, hgoing, hq]

theorem callEffect_widen (i : Instr) (hread : ys = [] ∨ (callEffect i c).ended = none) :
    callEffect i (widen os ys c) = widen os ys (callEffect i c) := by
  cases i with
  | add | mul | lt | eq =>
    simp only [callEffect_add, callEffect_mul, callEffect_lt, callEffect_eq, widen_machine, settle_widen os ys hgoing]
  | jt | jf => simp only [callEffect_jt, callEffect_jf, widen_machine, settle_widen os ys hgoing]
  | inp m1 => exact inputEffect_widen os ys hgoing m1 hread
  | out m1 => exact outputEffect_widen os ys hgoing m1
  | hlt => rw [callEffect_hlt, callEffect_hlt, widen_machine, widen_going os ys hgoing]; rfl

theorem enterCall_widen : enterCall (widen os ys c) = widen os ys (enterCall c) := by
  rw [enterCall, enterCall, widen_machine]
  split
  · rw [widen_endCall, widen_going os ys hgoing]; rfl
  · split
    · rw [widen_endCall, widen_going os ys hgoing]; rfl
    all_goals simp [widen, hgoing]

/-- An action of the engine in the longer call is the action in the call, unless it suspends the one and reads in the other. -/
theorem engine_widen (hread : ys = [] ∨ (engine c).ended = none) :
    engine (widen os ys c) = widen os ys (engine c) := by
  rw [engine, engine, widen_machine]
  split
  case isTrue hrun =>
    rw [engine, if_pos hrun, cycle] at hread
    rw [cycle, cycle, widen_machine]
    cases hi : fetchInstr c.machine with
    | ok i =>
      rw [hi] at hread
      exact callEffect_widen os ys hgoing i hread
    | error f => exact raise_widen os ys hgoing f
  case isFalse => exact enterCall_widen os ys hgoing

end

/-- A call after outputs `os` returns what it returns without them, with `os` in front. -/
theorem runCall_widen (os : List Int) (fuel : Nat) (c : Call) :
    runCall fuel (widen os [] c) = (runCall fuel c).map fun x => (x.1.prepend os, x.2) := by
  induction fuel generalizing c with
  | zero => rfl
  | succ fuel ih =>
    cases hended : c.ended with
    | none =>
      have hwide : (widen os [] c).ended = none := by rw [widen_going os [] hended]; exact hended
      rw [runCall_going hwide, runCall_going hended, engine_widen os [] hended (.inl rfl), ih]
    | some r =>
      rw [widen_ended os [] hended, runCall_ended rfl, runCall_ended hended]
      rfl

/-! ## The call after a suspension -/

/-- The call in the place of `c` that goes on from where the machine `m` waits, with `ys` to read and `out` emitted. -/
def resumeAt (c : Call) (m : MachineState) (ys out : List Int) : Call :=
  { c with machine := setRunState m .running, inq := ys, out := out, ended := none }

theorem resumeAt_engine (c : Call) (m : MachineState) (ys out : List Int) :
    resumeAt (engine c) m ys out = resumeAt c m ys out := by
  obtain ⟨hhandle, hctx⟩ := engine_keeps_place c
  simp only [resumeAt, hhandle, hctx]

theorem widen_resumeAt (os ys : List Int) (c : Call) (m : MachineState) :
    widen os [] (resumeAt c m ys []) = resumeAt c m ys os := by
  simp [widen, resumeAt]

/-- A suspended call, given more to read, comes to where the suspended machine goes on with that, its outputs kept. -/
theorem runCall_more_input {fuel : Nat} {c : Call} {o : List Int} {m : MachineState} (hgoing : c.ended = none)
    (h : runCall fuel c = some (.ok o, m)) (hawaiting : m.runState = .awaitingInput) (ys : List Int) :
    ∃ n, ∀ k, runCall (n + k) (widen [] ys c) = runCall k (resumeAt c m ys o) := by
  induction fuel generalizing c with
  | zero => cases h
  | succ fuel ih =>
    rw [runCall_going hgoing] at h
    cases hnext : (engine c).ended with
    | none =>
      obtain ⟨n, hn⟩ := ih hnext h
      refine ⟨n + 1, fun k => ?_⟩
      have hwide : (widen [] ys c).ended = none := by rw [widen_going [] ys hgoing]; exact hgoing
      rw [Nat.add_right_comm, runCall_going hwide, engine_widen [] ys hgoing (.inr hnext), hn, resumeAt_engine]
    | some r =>
      obtain ⟨rfl, rfl⟩ := eq_of_runCall_ended hnext h
      obtain ⟨hsuspend, hq, hrunning⟩ := engine_eq_suspend hgoing hnext hawaiting
      rw [hsuspend] at hnext
      cases hnext
      have hmachine : setRunState (engine c).machine .running = c.machine := by
        rw [hsuspend, ← hrunning]; rfl
      have hsame : widen [] ys c = resumeAt c (engine c).machine ys c.out := by
        rw [widen_going [] ys hgoing, resumeAt, hmachine, hq, hgoing]; rfl
      exact ⟨0, fun k => by rw [Nat.zero_add, hsame]⟩

/-- A call on a machine that waits: one action, and it goes on from there. -/
theorem runCall_resumes {m m₀ : MachineState} (hfault : m.fault = none) (hawaiting : m.runState = .awaitingInput)
    (xs ys : List Int) (fuel : Nat) :
    runCall (fuel + 1) (openCall 0 (.machine m) [] ys) =
      runCall fuel (resumeAt (openCall 0 (.machine m₀) [] xs) m ys []) := by
  rw [runCall_going rfl, engine_wakes hfault hawaiting]
  rfl

/-- What a call on a waiting machine returns, the suspended call with the whole input returns too, after its own outputs. -/
theorem runCall_append {n k : Nat} {m m₁ m₂ : MachineState} {xs ys o : List Int} {r : Result}
    (hfirst : runCall n (openCall 0 (.machine m) [] xs) = some (.ok o, m₁)) (hfault : m₁.fault = none)
    (hawaiting : m₁.runState = .awaitingInput)
    (hsecond : runCall k (openCall 0 (.machine m₁) [] ys) = some (r, m₂)) :
    ∃ l, runCall l (openCall 0 (.machine m) [] (xs ++ ys)) = some (r.prepend o, m₂) := by
  obtain ⟨l, hl⟩ := runCall_more_input rfl hfirst hawaiting ys
  have hresumed := runCall_mono hsecond k.le_succ
  rw [runCall_resumes hfault hawaiting xs] at hresumed
  refine ⟨l + k, (hl k).trans ?_⟩
  rw [← widen_resumeAt, runCall_widen, hresumed]
  rfl

/-- A call with nothing to read, on a machine that waits, leaves it waiting. -/
theorem runCall_nothing {n : Nat} {m m₁ : MachineState} {xs o : List Int}
    (hfirst : runCall n (openCall 0 (.machine m) [] xs) = some (.ok o, m₁)) (hfault : m₁.fault = none)
    (hawaiting : m₁.runState = .awaitingInput) :
    runCall (n + 1) (openCall 0 (.machine m₁) [] []) = some (.ok [], m₁) := by
  obtain ⟨l, hl⟩ := runCall_more_input rfl hfirst hawaiting []
  have hagain : runCall n (widen o [] (resumeAt (openCall 0 (.machine m) [] xs) m₁ [] [])) = some (.ok o, m₁) := by
    rw [widen_resumeAt, ← hl, runCall_widen, runCall_mono hfirst (Nat.le_add_left n l)]
    rfl
  rw [runCall_widen, Option.map_eq_some_iff] at hagain
  obtain ⟨⟨r, m'⟩, hrun, hr⟩ := hagain
  obtain ⟨hok, rfl⟩ := Prod.mk.inj hr
  rw [runCall_resumes hfault hawaiting xs, hrun]
  cases r with
  | ok out => simpa [Result.prepend] using hok
  | err => cases hok
  | refused => cases hok

/-! ## The unit around a member -/

/-- A unit with a Finished member is finished (spec/46_machine_and_pipe.md R182). -/
theorem unitFinished_plug {u : ExecUnit} (h : unitFinished u = true) (ctx : List Frame) :
    unitFinished (plug u ctx) = true := by
  induction ctx generalizing u with
  | nil => exact h
  | cons f ctx ih => cases f <;> exact ih (by simp [unitFinished, h])

/-! ## The statements -/

/-- Settles O38: more fuel changes no call of a machine (`runCall_mono`), so none of a pipe. -/
theorem executeIsIndependentOfFuel : Obligations.ExecuteIsIndependentOfFuel :=
  fun _ _ _ _ _ _ h hle => execute_mono hle h

/-- Settles O36: `CallEnd` holds of every machine's call that returns (`callEnd_of_runCall`). -/
theorem callEndsInOneOfTheListedWays : Obligations.CallEndsInOneOfTheListedWays := by
  intro fuel m m' input r h
  obtain ⟨_, hrun, hm'⟩ := execute_machine_iff.1 h
  cases hm'
  have hend : CallEnd m r m' := callEnd_of_runCall rfl hrun
  refine ⟨?_, hend.not_runnable⟩
  cases hend with
  | suspended o hf hs => exact .inl ⟨o, rfl, hf, hs⟩
  | halted o hf hs => exact .inr (.inl ⟨o, rfl, hf, hs⟩)
  | failed f hf hbefore => exact .inr (.inr (.inl ⟨f, rfl, hf, hbefore⟩))
  | failedBefore f hbefore => exact .inr (.inr (.inr (.inl ⟨f, rfl, hbefore, rfl⟩)))
  | refused hbefore hs => exact .inr (.inr (.inr (.inr ⟨rfl, hbefore, hs, rfl⟩)))

/-- Settles O39: the one call does what the first does with more to read (`runCall_more_input`), and from where that suspends what
the second does, after the first's outputs (`runCall_widen`). -/
theorem resumedCallEqualsOneCall : Obligations.ResumedCallEqualsOneCall := by
  intro n m m₁ xs o h hawaiting
  obtain ⟨_, hfirst, hm₁⟩ := execute_machine_iff.1 h
  cases hm₁
  have hfault : m₁.fault = none := by
    cases callEnd_of_runCall rfl hfirst with
    | suspended _ hf | halted _ hf => exact hf
  have hone {k : Nat} {ys : List Int} {r : Result} {u₂ : ExecUnit} (hsecond : execute k (.machine m₁) ys = some (r, u₂)) :
      ∃ l, execute l (.machine m) (xs ++ ys) = some (r.prepend o, u₂) := by
    obtain ⟨m₂, hrun, rfl⟩ := execute_machine_iff.1 hsecond
    obtain ⟨l, hl⟩ := runCall_append hfirst hfault hawaiting hrun
    exact ⟨l, execute_machine_iff.2 ⟨m₂, hl, rfl⟩⟩
  exact ⟨fun _ _ _ _ => hone, fun _ _ _ _ => hone,
    n + 1, execute_machine_iff.2 ⟨m₁, runCall_nothing hfirst hfault hawaiting, rfl⟩⟩

/-- Settles O7: a fetch beyond memory and a decoder's failure are the two ways the first two steps of a cycle fail
(`fetchInstr_error_iff`). -/
theorem stepRaisesFetchAndDecodeFailures : Obligations.StepRaisesFetchAndDecodeFailures := by
  intro s c h
  refine ⟨fun hend => h.step_eq_raise (fetchInstr_error_iff.2 (.inl ⟨hend, rfl⟩)), fun v hv => ?_⟩
  have hraise {e : DecodeError} (he : decode v = .error e) :
      step s = .next { s with call := some (raise (decodeFault e) c) } :=
    h.step_eq_raise (fetchInstr_error_iff.2 (.inr ⟨v, e, hv, he, rfl⟩))
  exact ⟨hraise, hraise⟩

/-- Settles O30: one step opens the call (`step_begins_call`), and one more wakes a machine that waits (`engine_wakes`). -/
theorem callStartsOrResumesTheMachine : Obligations.CallStartsOrResumesTheMachine := by
  intro s h input rest m ⟨hcall, hrequests, hunit, hwords⟩ hfault _
  have hbegin := step_begins_call hcall hrequests hunit hwords
  refine ⟨fun _ => hbegin, fun hawaiting => ?_⟩
  rw [runSteps_succ hbegin, runSteps_succ (step_in_call rfl rfl), engine_wakes hfault hawaiting]
  rfl

/-- Settles O6: `InCycle.step_eq_exec`. -/
theorem stepRunsTheDecodedInstruction : Obligations.StepRunsTheDecodedInstruction :=
  fun _ _ _ _ h hv hi => h.step_eq_exec hv hi

/-- Settles O54: the cell 99 decodes to HLT, whose effect is `halt`; a Finished machine is inert (`engine_machine_of_inert`). -/
theorem haltEndsTheCallForGood : Obligations.HaltEndsTheCallForGood := by
  refine ⟨fun s c h h99 => ?_, fun s t c c' hcall hgoing hfinished ht hc' => ?_⟩
  · have hstep := h.step_eq_exec h99 (i := .hlt) rfl
    obtain ⟨hcall, -, -, hfault⟩ := h
    rw [exec_of_call hcall, callEffect_hlt] at hstep
    exact ⟨_, _, hstep, rfl, rfl, rfl, hfault, rfl, unitFinished_plug rfl c.ctx⟩
  · rw [step_in_call hcall hgoing] at ht
    cases ht
    cases hc'
    exact engine_machine_of_inert (.inl hfinished)

end Sys2Proof.Machine
end

section
/-! SUPPORT. The four three-operand operations (spec/43_arithmetic_compare.md): `exec` follows `binary`, whose failures and
whose completion `binary_error_iff` and `binary_ok_iff` give. -/

namespace Sys2Proof.Machine

/-- `op` is a three-operand operation with two sources and a destination, and `g` is its result (format F3). -/
structure ThreeOperand (op : Mode → Mode → Mode → Instr) (g : Int → Int → Except Fault Int) : Prop where
  modes : ∀ m1 m2 m3, (op m1 m2 m3).modes = [m1, m2, m3]
  destination : ∀ m1 m2 m3, destinationOperand (op m1 m2 m3) = some 3
  effect : ∀ m1 m2 m3 c, callEffect (op m1 m2 m3) c = settle c (binary g m1 m2 m3 c.machine)

theorem threeOperand_add : ThreeOperand .add addResult := ⟨fun _ _ _ => rfl, fun _ _ _ => rfl, callEffect_add⟩
theorem threeOperand_mul : ThreeOperand .mul mulResult := ⟨fun _ _ _ => rfl, fun _ _ _ => rfl, callEffect_mul⟩
theorem threeOperand_lt : ThreeOperand .lt ltResult := ⟨fun _ _ _ => rfl, fun _ _ _ => rfl, callEffect_lt⟩
theorem threeOperand_eq : ThreeOperand .eq eqResult := ⟨fun _ _ _ => rfl, fun _ _ _ => rfl, callEffect_eq⟩

/-- Where operand3 is the destination, operands 1 and 2 are the sources, each with its own mode. -/
theorem sourceMode_eq_some_iff {i : Instr} {m1 m2 m3 mode : Mode} {k : Nat} (hdest : destinationOperand i = some 3)
    (hmodes : i.modes = [m1, m2, m3]) : sourceMode i k = some mode ↔ (k = 1 ∧ mode = m1) ∨ (k = 2 ∧ mode = m2) := by
  cases i with
  | add | mul | lt | eq =>
    cases hmodes
    match k with
    | 0 | 1 | 2 | _ + 3 => simp [sourceMode, eq_comm]
  | inp | out | jt | jf | hlt => cases hmodes

namespace ThreeOperand

variable {op : Mode → Mode → Mode → Instr} {g : Int → Int → Except Fault Int} (hop : ThreeOperand op g)
  {s : State} {c : Call} {m1 m2 m3 : Mode} {f : Fault}
include hop

theorem exec_of_error (hc : s.call = some c) (h : binary g m1 m2 m3 c.machine = .error f) :
    exec (op m1 m2 m3) s = .next { s with call := some (raise f c) } := by
  rw [exec_of_call hc, hop.effect, h, settle_error]

theorem exec_of_ok {m' : MachineState} (hc : s.call = some c) (h : binary g m1 m2 m3 c.machine = .ok m') :
    exec (op m1 m2 m3) s = .next { s with call := some { c with machine := m' } } := by
  rw [exec_of_call hc, hop.effect, h, settle_ok]

/-- The first operand that cannot be fetched or read fails the operation: the operands before it have their values. -/
theorem binary_error_of_firstOperandFailure {m : MachineState} {k : Nat}
    (h : FirstOperandFailure m (op m1 m2 m3) k f) : binary g m1 m2 m3 m = .error f := by
  have hsource {j : Nat} {mode : Mode} := sourceMode_eq_some_iff (k := j) (mode := mode)
    (hop.destination m1 m2 m3) (hop.modes m1 m2 m3)
  obtain ⟨hbefore, hfails⟩ := h
  have hfirst (hk : 1 < k) : ∃ a, SourceAt m m1 1 a := hbefore 1 m1 le_rfl hk (hsource.2 (.inl ⟨rfl, rfl⟩))
  have hsecond (hk : 2 < k) : ∃ b, SourceAt m m2 2 b := hbefore 2 m2 one_le_two hk (hsource.2 (.inr ⟨rfl, rfl⟩))
  rw [binary_error_iff]
  rcases hfails with ⟨mode, hmode, hfail⟩ | ⟨hdest, hend, rfl⟩
  · obtain ⟨rfl, rfl⟩ | ⟨rfl, rfl⟩ := hsource.1 hmode
    · exact .inl hfail
    · obtain ⟨a, ha⟩ := hfirst one_lt_two
      exact .inr ⟨a, ha, .inl hfail⟩
  · cases (hop.destination m1 m2 m3).symm.trans hdest
    obtain ⟨a, ha⟩ := hfirst (by decide)
    obtain ⟨b, hb⟩ := hsecond (by decide)
    exact .inr ⟨a, ha, .inr ⟨b, hb, .inl ⟨hend, rfl⟩⟩⟩

/-- With both sources and the destination's cell there, a failing result fails the operation before the write. -/
theorem exec_of_result_error {a b raw : Int} (hc : s.call = some c) (ha : SourceAt c.machine m1 1 a)
    (hb : SourceAt c.machine m2 2 b) (hraw : OperandAt c.machine 3 raw) (hg : g a b = .error f) :
    exec (op m1 m2 m3) s = .next { s with call := some (raise f c) } :=
  hop.exec_of_error hc (binary_error_iff.2 (.inr ⟨a, ha, .inr ⟨b, hb, .inr ⟨raw, hraw, .inl hg⟩⟩⟩))

/-- With both sources, the destination's cell and the result there, a failing write fails the operation. -/
theorem exec_of_write_error {a b raw v : Int} (hc : s.call = some c) (ha : SourceAt c.machine m1 1 a)
    (hb : SourceAt c.machine m2 2 b) (hraw : OperandAt c.machine 3 raw) (hg : g a b = .ok v)
    (hwrite : writeOperand c.machine m3 raw v = .error f) :
    exec (op m1 m2 m3) s = .next { s with call := some (raise f c) } :=
  hop.exec_of_error hc (binary_error_iff.2
    (.inr ⟨a, ha, .inr ⟨b, hb, .inr ⟨raw, hraw, .inr ⟨v, hg, writeOperand_error_iff.1 hwrite⟩⟩⟩⟩))

/-- An operation whose result, where it is a Word, is `r` of the sources meets the rule that the four share. -/
theorem storesResult {r : Int → Int → Int} (hr : ∀ a b, isWord (r a b) = true → g a b = .ok (r a b)) :
    StoresResult op r := by
  intro s c m1 m2 m3 hc
  refine ⟨fun k f hfail => hop.exec_of_error hc (hop.binary_error_of_firstOperandFailure hfail),
    fun a b raw ha hb hraw hword => ?_⟩
  have hg := hr a b hword
  have hwrite {f : Fault} := hop.exec_of_write_error (m3 := m3) (f := f) hc ha hb hraw hg
  refine ⟨fun h3 => hwrite (writeOperand_error_iff.2 (.inl ⟨h3, rfl⟩)),
    fun h3 hneg => hwrite (writeOperand_error_iff.2 (.inr ⟨h3, .inl ⟨hneg, rfl⟩⟩)),
    fun h3 hlen => hwrite (writeOperand_error_iff.2 (.inr ⟨h3, .inr ⟨hlen, rfl⟩⟩)), fun h3 h0 hlt => ?_⟩
  lift raw to Nat using h0
  exact hop.exec_of_ok hc (binary_ok_iff.2 ⟨a, b, r a b, raw, ha, hb, hraw, hg, h3, Int.ofNat_lt.1 hlt, rfl⟩)

/-- An operation whose result is range-checked overflows where the exact result is no Word. -/
theorem failsOutsideWords {r : Int → Int → Int}
    (hr : ∀ a b, isWord (r a b) = false → g a b = .error .arithmeticOverflow) : FailsOutsideWords op r :=
  fun _ _ _ _ _ a b _ hc ha hb hraw hword => hop.exec_of_result_error hc ha hb hraw (hr a b hword)

end ThreeOperand

theorem truthWord_decide (p : Prop) [Decidable p] : truthWord (decide p) = if p then 1 else 0 := by
  simp [truthWord]

theorem isWord_ite_one_zero (p : Prop) [Decidable p] : isWord (if p then 1 else 0) = true := by
  rw [← truthWord_decide, isWord_truthWord]

/-! ## The statements -/

/-- Settles O8: the rule the four share (`ThreeOperand.storesResult`), and `narrow`'s range check of the sum. -/
theorem addStoresTheExactSumOrFails : Obligations.AddStoresTheExactSumOrFails :=
  ⟨threeOperand_add.storesResult fun _ _ hword => narrow_ok_iff.2 ⟨hword, rfl⟩,
    threeOperand_add.failsOutsideWords fun _ _ hword => narrow_error_iff.2 ⟨hword, rfl⟩⟩

/-- Settles O9: the rule the four share (`ThreeOperand.storesResult`), and `narrow`'s range check of the product. -/
theorem mulStoresTheExactProductOrFails : Obligations.MulStoresTheExactProductOrFails :=
  ⟨threeOperand_mul.storesResult fun _ _ hword => narrow_ok_iff.2 ⟨hword, rfl⟩,
    threeOperand_mul.failsOutsideWords fun _ _ hword => narrow_error_iff.2 ⟨hword, rfl⟩⟩

/-- Settles O10: the rule the four share (`ThreeOperand.storesResult`), with the Word of the comparison as the result. -/
theorem ltStoresTheSignedComparison : Obligations.LtStoresTheSignedComparison :=
  ⟨threeOperand_lt.storesResult fun a b _ => congrArg Except.ok (truthWord_decide (a < b)),
    fun a b => isWord_ite_one_zero (a < b)⟩

/-- Settles O11: the rule the four share (`ThreeOperand.storesResult`), with the Word of the equality as the result. -/
theorem eqStoresTheEquality : Obligations.EqStoresTheEquality :=
  ⟨threeOperand_eq.storesResult fun a b _ => congrArg Except.ok (truthWord_decide (a = b)),
    fun a b => isWord_ite_one_zero (a = b)⟩

end Sys2Proof.Machine
end

section
/-! SUPPORT. IN and OUT (spec/44_input_output.md): one equation for each way `inputEffect` and `outputEffect` act on the call. -/

namespace Sys2Proof.Machine

/-! ## The store of a received value -/

theorem storeInput_ok_iff {m1 : Mode} {raw x : Int} {m m' : MachineState} :
    storeInput m1 raw x m = .ok m' ↔
      m1 = .reference ∧ ∃ i : Nat, raw = (i : Int) ∧ i < m.mem.length ∧ m' = setPc (memWrite m i x) (m.pc + 2) := by
  simp only [storeInput, bind_ok_iff, writeOperand_ok_iff, pure, Except.pure, Except.ok.injEq]
  constructor
  · rintro ⟨_, ⟨hmode, i, hi, hlt, rfl⟩, rfl⟩
    exact ⟨hmode, i, hi, hlt, rfl⟩
  · rintro ⟨hmode, i, hi, hlt, rfl⟩
    exact ⟨_, ⟨hmode, i, hi, hlt, rfl⟩, rfl⟩

/-- The move of `pc` cannot fail: the store fails exactly where the write does. -/
theorem storeInput_error_iff {m1 : Mode} {raw x : Int} {m : MachineState} {f : Fault} :
    storeInput m1 raw x m = .error f ↔ writeOperand m m1 raw x = .error f := by
  simp only [storeInput, bind_error_iff, pure, Except.pure, reduceCtorEq, and_false, exists_false, or_false]

/-! ## The cases of the two effects -/

section
variable {c : Call} {m1 : Mode}

theorem inputEffect_of_no_cell (h : c.machine.mem.length ≤ c.machine.pc + 1) :
    inputEffect m1 c = raise .unexpectedEndOfFile c := by
  rw [inputEffect, operandCell_error_iff.2 ⟨h, rfl⟩]

theorem inputEffect_of_empty {raw : Int} (hraw : OperandAt c.machine 1 raw) (hq : c.inq = []) :
    inputEffect m1 c = suspend c := by
  simp only [inputEffect, operandCell_ok_iff.2 hraw, hq]

theorem inputEffect_of_cons {raw x : Int} {rest : List Int} (hraw : OperandAt c.machine 1 raw) (hq : c.inq = x :: rest) :
    inputEffect m1 c = settle { c with inq := rest } (storeInput m1 raw x c.machine) := by
  simp only [inputEffect, operandCell_ok_iff.2 hraw, hq]

/-- A failing write raises its failure on the call as it was: the entry discards the queue, removed front or not. -/
theorem inputEffect_of_write_error {raw x : Int} {rest : List Int} {f : Fault} (hraw : OperandAt c.machine 1 raw)
    (hq : c.inq = x :: rest) (hwrite : writeOperand c.machine m1 raw x = .error f) : inputEffect m1 c = raise f c := by
  rw [inputEffect_of_cons hraw hq, storeInput_error_iff.2 hwrite, settle_error]
  rfl

theorem inputEffect_of_write {i : Nat} {x : Int} {rest : List Int} (hraw : OperandAt c.machine 1 (i : Int))
    (hq : c.inq = x :: rest) (hlt : i < c.machine.mem.length) :
    inputEffect .reference c =
      { c with inq := rest, machine := setPc (memWrite c.machine i x) (c.machine.pc + 2) } := by
  rw [inputEffect_of_cons hraw hq, storeInput_ok_iff.2 ⟨rfl, i, rfl, hlt, rfl⟩, settle_ok]

theorem outputEffect_of_sourceFails {f : Fault} (h : SourceFails c.machine m1 1 f) : outputEffect m1 c = raise f c := by
  rw [outputEffect, sourceOperand_error_iff.2 h]

theorem outputEffect_of_sourceAt {v : Int} (h : SourceAt c.machine m1 1 v) :
    outputEffect m1 c = { c with out := c.out ++ [v], machine := setPc c.machine (c.machine.pc + 2) } := by
  rw [outputEffect, sourceOperand_ok_iff.2 h]

end

/-- OUT has one operand, a source: only its failure can be the first. -/
theorem firstOperandFailure_out {m : MachineState} {m1 : Mode} {k : Nat} {f : Fault}
    (h : FirstOperandFailure m (.out m1) k f) : SourceFails m m1 1 f := by
  obtain ⟨-, ⟨mode, hmode, hfail⟩ | ⟨hdest, -⟩⟩ := h
  · match k with
    | 1 =>
      cases hmode
      exact hfail
    | 0 | _ + 2 => cases hmode
  · cases hdest

theorem exec_of_callEffect_eq {i : Instr} {s : State} {c c' : Call} (hc : s.call = some c) (h : callEffect i c = c') :
    exec i s = .next { s with call := some c' } := by
  rw [exec_of_call hc, h]

/-! ## The statements -/

/-- Settles O12, by the cases of `inputEffect`: no operand cell, an empty queue, a write that fails, a write that completes. -/
theorem inStoresTheFrontOrSuspends : Obligations.InStoresTheFrontOrSuspends := by
  intro s c m1 hc
  refine ⟨fun hend => exec_of_callEffect_eq hc (inputEffect_of_no_cell hend), fun raw hraw =>
    ⟨fun hq => exec_of_callEffect_eq hc (inputEffect_of_empty hraw hq), fun x rest hq => ?_⟩⟩
  have hfails {f : Fault} (hwrite : writeOperand c.machine m1 raw x = .error f) :=
    exec_of_callEffect_eq (i := .inp m1) hc (inputEffect_of_write_error hraw hq hwrite)
  refine ⟨fun himm => hfails (writeOperand_error_iff.2 (.inl ⟨himm, rfl⟩)),
    fun href hneg => hfails (writeOperand_error_iff.2 (.inr ⟨href, .inl ⟨hneg, rfl⟩⟩)),
    fun href hlen => hfails (writeOperand_error_iff.2 (.inr ⟨href, .inr ⟨hlen, rfl⟩⟩)), fun href h0 hlt => ?_⟩
  subst href
  lift raw to Nat using h0
  exact exec_of_callEffect_eq hc (inputEffect_of_write hraw hq (Int.ofNat_lt.1 hlt))

/-- Settles O13, by the two cases of `outputEffect`: its operand fails, or has a value. -/
theorem outAppendsItsValue : Obligations.OutAppendsItsValue := fun _ _ _ hc =>
  ⟨fun _ _ hfail => exec_of_callEffect_eq hc (outputEffect_of_sourceFails (firstOperandFailure_out hfail)),
    fun _ hv => exec_of_callEffect_eq hc (outputEffect_of_sourceAt hv)⟩

end Sys2Proof.Machine
end

section
/-! SUPPORT. JT, JF and HLT (spec/45_control_transfer.md): `exec` of JT and JF follows `jump`, whose failures and whose
completion `jump_error_iff` and `jump_ok_iff` give. -/

namespace Sys2Proof.Machine

/-! ## The operands of a jump -/

section
variable {i : Instr} {m1 m2 : Mode} {k : Nat}

/-- Operands 1 and 2 of a jump are sources, each with its own mode, and there is no other. -/
theorem sourceMode_jump_eq_some_iff {mode : Mode} (hi : i = .jt m1 m2 ∨ i = .jf m1 m2) :
    sourceMode i k = some mode ↔ (k = 1 ∧ mode = m1) ∨ (k = 2 ∧ mode = m2) := by
  rcases hi with rfl | rfl <;>
  match k with
  | 0 | 1 | 2 | _ + 3 => simp [sourceMode, eq_comm]

theorem destinationOperand_jump (hi : i = .jt m1 m2 ∨ i = .jf m1 m2) : destinationOperand i = none := by
  rcases hi with rfl | rfl <;> rfl

/-- The first operand failure of a jump is operand1's, or operand2's once operand1 has its value. -/
theorem firstOperandFailure_jump {m : MachineState} {f : Fault} (hi : i = .jt m1 m2 ∨ i = .jf m1 m2)
    (h : FirstOperandFailure m i k f) : SourceFails m m1 1 f ∨ ∃ v, SourceAt m m1 1 v ∧ SourceFails m m2 2 f := by
  obtain ⟨hbefore, ⟨mode, hmode, hfail⟩ | ⟨hdest, -⟩⟩ := h
  · obtain ⟨rfl, rfl⟩ | ⟨rfl, rfl⟩ := (sourceMode_jump_eq_some_iff hi).1 hmode
    · exact .inl hfail
    · obtain ⟨v, hv⟩ := hbefore 1 m1 le_rfl one_lt_two ((sourceMode_jump_eq_some_iff hi).2 (.inl ⟨rfl, rfl⟩))
      exact .inr ⟨v, hv, hfail⟩
  · rw [destinationOperand_jump hi] at hdest
    cases hdest

end

/-! ## The rule that the two jumps share -/

/-- A jump whose test of operand1 decides `taken` meets the rule: its operands, then the test, then the target's sign. -/
theorem jumpsWhen_of_jump {op : Mode → Mode → Instr} {test : Int → Bool} {taken : Int → Prop}
    (hop : ∀ m1 m2, op m1 m2 = .jt m1 m2 ∨ op m1 m2 = .jf m1 m2)
    (heffect : ∀ m1 m2 c, callEffect (op m1 m2) c = settle c (jump test m1 m2 c.machine))
    (htest : ∀ v, test v = true ↔ taken v) : JumpsWhen op taken := by
  intro s c m1 m2 hc
  have hfails {f : Fault} (h : jump test m1 m2 c.machine = .error f) :
      exec (op m1 m2) s = .next { s with call := some (raise f c) } :=
    exec_of_callEffect_eq hc (by rw [heffect, h, settle_error])
  have hgoes {p : Nat} (h : jump test m1 m2 c.machine = .ok (setPc c.machine p)) :
      exec (op m1 m2) s = .next { s with call := some { c with machine := setPc c.machine p } } :=
    exec_of_callEffect_eq hc (by rw [heffect, h, settle_ok])
  refine ⟨fun k f hfirst => hfails (jump_error_iff.2 ?_), fun v t hv ht => ⟨fun htaken h0 => ?_, fun htaken hneg => ?_,
    fun hnot => ?_⟩⟩
  · exact (firstOperandFailure_jump (hop m1 m2) hfirst).imp_right fun ⟨v, hv, hfail⟩ => ⟨v, hv, .inl hfail⟩
  · exact hgoes (jump_ok_iff.2 ⟨v, t, hv, ht, .inl ⟨(htest v).2 htaken, t.toNat, (Int.toNat_of_nonneg h0).symm, rfl⟩⟩)
  · exact hfails (jump_error_iff.2 (.inr ⟨v, hv, .inr ⟨t, ht, (htest v).2 htaken, hneg, rfl⟩⟩))
  · exact hgoes (jump_ok_iff.2 ⟨v, t, hv, ht, .inr ⟨Bool.eq_false_iff.2 (mt (htest v).1 hnot), rfl⟩⟩)

theorem truthOf_eq_true_iff (v : Int) : truthOf v = true ↔ v ≠ 0 := decide_eq_true_iff

theorem not_truthOf_eq_true_iff (v : Int) : (!truthOf v) = true ↔ v = 0 := by
  rw [Bool.not_eq_true', ← Bool.not_eq_true, truthOf_eq_true_iff, not_not]

/-! ## The statements -/

/-- Settles O14: the rule the two share (`jumpsWhen_of_jump`), with the test that operand1 is not 0. -/
theorem jtJumpsWhenOperandIsNotZero : Obligations.JtJumpsWhenOperandIsNotZero :=
  jumpsWhen_of_jump (fun _ _ => .inl rfl) callEffect_jt truthOf_eq_true_iff

/-- Settles O15: the rule the two share (`jumpsWhen_of_jump`), with the test that operand1 is 0. -/
theorem jfJumpsWhenOperandIsZero : Obligations.JfJumpsWhenOperandIsZero :=
  jumpsWhen_of_jump (fun _ _ => .inr rfl) callEffect_jf not_truthOf_eq_true_iff

/-- Settles O16: the effect of HLT (`callEffect_hlt`) has no operand and no check; `halt` ends the call. -/
theorem hltFinishesTheMachine : Obligations.HltFinishesTheMachine := fun _ c hc =>
  exec_of_callEffect_eq hc (callEffect_hlt c)

end Sys2Proof.Machine
end

section
/-! SUPPORT. Whole calls on units (spec/46_machine_and_pipe.md): that the core's steps perform `execute` (R181), the refused call
(R176), what is known of every machine after a call (R182, R187), and the two bracketings of three units (R185). -/

namespace Sys2Proof.Machine

/-! ## Runs of some number of steps -/

/-- Some number of steps, none of them a fault or a refusal, lead from `s` to `t`. -/
def Reaches (s t : State) : Prop := ∃ n, runSteps n s = some t

theorem Reaches.refl (s : State) : Reaches s s := ⟨0, rfl⟩

theorem Reaches.of_step {s t : State} (h : step s = .next t) : Reaches s t := ⟨1, runSteps_succ h⟩

theorem Reaches.trans {s t u : State} : Reaches s t → Reaches t u → Reaches s u :=
  fun ⟨n, hn⟩ ⟨k, hk⟩ => ⟨n + k, (runSteps_add hn).trans hk⟩

/-! ## The place of a call

The spec's pseudocode runs a machine's call by itself; the core runs it at a handle and inside pipes, which no action of the
engine looks at. -/

/-- The call `c` at another place in the caller's units. -/
def relocate (handle : Nat) (ctx : List Frame) (c : Call) : Call := { c with handle := handle, ctx := ctx }

section
variable (handle : Nat) (ctx : List Frame) (c : Call)

theorem settle_relocate (r : Except Fault MachineState) :
    settle (relocate handle ctx c) r = relocate handle ctx (settle c r) := by
  cases r <;> rfl

theorem inputEffect_relocate (m1 : Mode) :
    inputEffect m1 (relocate handle ctx c) = relocate handle ctx (inputEffect m1 c) := by
  simp only [inputEffect, relocate]
  split
  · rfl
  · split
    · rfl
    · exact settle_relocate handle ctx { c with inq := _ } _

theorem outputEffect_relocate (m1 : Mode) :
    outputEffect m1 (relocate handle ctx c) = relocate handle ctx (outputEffect m1 c) := by
  simp only [outputEffect, relocate]
  split <;> rfl

theorem callEffect_relocate (i : Instr) :
    callEffect i (relocate handle ctx c) = relocate handle ctx (callEffect i c) := by
  cases i with
  | add | mul | lt | eq | jt | jf => exact settle_relocate handle ctx c _
  | inp m1 => exact inputEffect_relocate handle ctx c m1
  | out m1 => exact outputEffect_relocate handle ctx c m1
  | hlt => rfl

theorem cycle_relocate : cycle (relocate handle ctx c) = relocate handle ctx (cycle c) := by
  simp only [cycle, show (relocate handle ctx c).machine = c.machine from rfl]
  split
  · exact callEffect_relocate handle ctx c _
  · rfl

theorem enterCall_relocate : enterCall (relocate handle ctx c) = relocate handle ctx (enterCall c) := by
  simp only [enterCall, relocate]
  split
  · rfl
  · split <;> rfl

theorem engine_relocate : engine (relocate handle ctx c) = relocate handle ctx (engine c) := by
  rw [engine, engine, cycle_relocate, enterCall_relocate, ← apply_ite]
  rfl

theorem runCall_relocate (fuel : Nat) : runCall fuel (relocate handle ctx c) = runCall fuel c := by
  induction fuel generalizing c with
  | zero => rfl
  | succ fuel ih =>
    cases hended : c.ended with
    | none => rw [runCall_going (c := relocate handle ctx c) hended, runCall_going hended, engine_relocate, ih]
    | some r => rw [runCall_ended (c := relocate handle ctx c) hended, runCall_ended hended]; rfl

end

/-! ## The steps of a call -/

/-- The steps of a machine's call, as `runCall` has them: the call ends in its place, and nothing else changes. -/
theorem reaches_end_of_runCall {fuel : Nat} {c : Call} {r : Result} {m' : MachineState} (s : State)
    (h : runCall fuel c = some (r, m')) :
    ∃ c', Reaches { s with call := some c } { s with call := some c' } ∧ c'.ended = some r ∧ c'.machine = m' ∧
      c'.handle = c.handle ∧ c'.ctx = c.ctx := by
  induction fuel generalizing c with
  | zero => cases h
  | succ fuel ih =>
    cases hended : c.ended with
    | none =>
      rw [runCall_going hended] at h
      obtain ⟨c', hreach, hr, hm, hhandle', hctx'⟩ := ih h
      obtain ⟨hhandle, hctx⟩ := engine_keeps_place c
      have hstep : Reaches { s with call := some c } { s with call := some (engine c) } :=
        .of_step (step_in_call rfl hended)
      exact ⟨c', hstep.trans hreach, hr, hm, hhandle'.trans hhandle, hctx'.trans hctx⟩
    | some r₀ =>
      obtain ⟨rfl, rfl⟩ := eq_of_runCall_ended hended h
      exact ⟨c, .refl _, hended, rfl, rfl, rfl⟩

/-- The step that hands a member's outputs on begins the call on the next member. -/
theorem reaches_nextMember (s : State) {c : Call} {r : Result} {second : ExecUnit} {ctx : List Frame} {xs : List Int}
    (hended : c.ended = some r) (hon : handOn (.machine c.machine) r c.ctx = .next second ctx xs) :
    Reaches { s with call := some c } { s with call := some (openCall c.handle second ctx xs) } := by
  refine .of_step ((step_hands_on rfl hended).trans ?_)
  rw [returnCall_of_next hon]

/-- The steps of a call on a unit anywhere in a tree of pipes, up to the end of its last machine's call: from there the call goes
on as from the return of the unit that `execute` leaves, with the result that `execute` gives. -/
theorem reaches_end_of_execute {fuel : Nat} {u u' : ExecUnit} {input : List Int} {r : Result} (s : State) (handle : Nat)
    (ctx : List Frame) (h : execute fuel u input = some (r, u')) :
    ∃ c, Reaches { s with call := some (openCall handle u ctx input) } { s with call := some c } ∧ c.ended = some r ∧
      c.handle = handle ∧ handOn (.machine c.machine) r c.ctx = handOn u' r ctx := by
  induction u generalizing u' input r ctx with
  | machine m =>
    obtain ⟨m', hrun, rfl⟩ := execute_machine_iff.1 h
    rw [← runCall_relocate handle ctx] at hrun
    obtain ⟨c, hreach, hended, rfl, hhandle, hctx⟩ := reaches_end_of_runCall s hrun
    refine ⟨c, hreach, hended, hhandle, ?_⟩
    rw [hctx]
    rfl
  | pipe a b iha ihb =>
    obtain ⟨mid, a', b', ha, hb, rfl⟩ | ⟨a', ha, hnot, rfl⟩ := execute_pipe_iff.1 h
    · obtain ⟨c₁, hfirst, hended₁, rfl, hon₁⟩ := iha (.inFirst b :: ctx) ha
      have hnext := reaches_nextMember s hended₁ (hon₁.trans (handOn_inFirst a' b mid ctx))
      obtain ⟨c₂, hsecond, hended₂, hhandle₂, hon₂⟩ := ihb (.inSecond a' :: ctx) hb
      exact ⟨c₂, (hfirst.trans hnext).trans hsecond, hended₂, hhandle₂, hon₂.trans (handOn_inSecond b' a' r ctx)⟩
    · obtain ⟨c, hreach, hended, hhandle, hon⟩ := iha (.inFirst b :: ctx) ha
      refine ⟨c, hreach, hended, hhandle, ?_⟩
      rw [hon, handOn_of_not_ok hnot, handOn_of_not_ok hnot]
      rfl

/-- The step that begins the call which the caller asks for. -/
theorem AsksExecute.step_begins {s : State} {h : Nat} {input : List Int} {rest : List Request} {u : ExecUnit}
    (hasks : AsksExecute s h input rest u) :
    step s = .next { s with units := s.units.set h none, requests := rest, call := some (openCall h u [] input) } := by
  obtain ⟨hcall, hrequests, hunit, hwords⟩ := hasks
  exact step_begins_call hcall hrequests hunit hwords

/-- A call that the engine ends in its first action, leaving the machine as it is: three steps, and the caller holds the same
units as before. -/
theorem runSteps_call_ended_at_entry {s : State} {h : Nat} {input : List Int} {rest : List Request} {m : MachineState}
    {r : Result} (hasks : AsksExecute s h input rest (.machine m))
    (hentry : engine (openCall h (.machine m) [] input) = endCall r (openCall h (.machine m) [] input)) :
    runSteps 3 s = some { s with requests := rest, replies := s.replies ++ [.executed h r] } := by
  rw [runSteps_succ hasks.step_begins, runSteps_succ (step_in_call rfl rfl), hentry, runSteps_succ (step_hands_on rfl rfl),
    returnCall_of_back rfl]
  obtain ⟨hcall, -, hunit, -⟩ := hasks
  obtain ⟨hlt, hget⟩ := List.getElem?_eq_some_iff.1 hunit
  have hunits : (s.units.set h none).set h (some (.machine m)) = s.units := by
    rw [List.set_set, ← hget, List.set_getElem_self]
  simp only [runSteps_zero, endCall_handle, endCall_machine, openCall_machine, hunits, hcall]

/-! ## Machines after a call -/

theorem unitFinished_iff {u : ExecUnit} : unitFinished u = true ↔ ∃ m ∈ unitMachines u, m.runState = .finished := by
  induction u with
  | machine m => simp [unitFinished, unitMachines]
  | pipe a b iha ihb =>
    simp only [unitFinished, Bool.or_eq_true, iha, ihb, unitMachines, List.mem_append, or_and_right, exists_or]

/-- A Finished machine stays Finished through every call on its unit (spec/60_exceptions.md R222). -/
theorem execute_keeps_finished {fuel : Nat} {u u' : ExecUnit} {input : List Int} {r : Result}
    (h : execute fuel u input = some (r, u')) :
    List.Forall₂ (fun m m' => m.runState = .finished → m'.runState = .finished) (unitMachines u) (unitMachines u') :=
  execute_keeps (R := fun m m' => m.runState = .finished → m'.runState = .finished) (fun _ => id)
    (fun _ _ _ h₁ h₂ => h₂ ∘ h₁) (fun _ _ hfinished => by rwa [engine_machine_of_inert (.inl hfinished)]) h

theorem unitFinished_after_execute {fuel : Nat} {u u' : ExecUnit} {input : List Int} {r : Result}
    (h : execute fuel u input = some (r, u')) (hfinished : unitFinished u = true) : unitFinished u' = true := by
  obtain ⟨m, hm, hstate⟩ := unitFinished_iff.1 hfinished
  obtain ⟨i, hi, rfl⟩ := List.getElem_of_mem hm
  have hkept := execute_keeps_finished h
  have hi' : i < (unitMachines u').length := hkept.length_eq ▸ hi
  exact unitFinished_iff.2 ⟨_, List.getElem_mem hi', hkept.get hi hi' hstate⟩

/-- A call that returns `Ok` has called every machine of the unit, and each has suspended or halted. -/
theorem waiting_or_finished_of_ok {fuel : Nat} {u u' : ExecUnit} {input outputs : List Int}
    (h : execute fuel u input = some (.ok outputs, u')) :
    ∀ m ∈ unitMachines u', m.fault = none ∧ (m.runState = .awaitingInput ∨ m.runState = .finished) := by
  induction u generalizing u' input outputs with
  | machine m =>
    obtain ⟨m', hrun, rfl⟩ := execute_machine_iff.1 h
    have hend : CallEnd m (.ok outputs) m' := callEnd_of_runCall rfl hrun
    intro x hx
    cases List.mem_singleton.1 hx
    cases hend with
    | suspended _ hfault hstate => exact ⟨hfault, .inl hstate⟩
    | halted _ hfault hstate => exact ⟨hfault, .inr hstate⟩
  | pipe a b iha ihb =>
    obtain ⟨mid, a', b', ha, hb, rfl⟩ | ⟨a', -, hnot, -⟩ := execute_pipe_iff.1 h
    · intro x hx
      exact (List.mem_append.1 hx).elim (iha ha x) (ihb hb x)
    · exact absurd rfl (hnot outputs)

/-! ## Three units in a row -/

/-- A call on three units in a row returns `r` and leaves `a'`, `b'`, `c'`: it ended in the first, in the second, or in the
third. -/
inductive ChainOfThree (fuel : Nat) (a b c : ExecUnit) (input : List Int) (r : Result) :
    ExecUnit → ExecUnit → ExecUnit → Prop
  | first {a' : ExecUnit} (ha : execute fuel a input = some (r, a')) (hnot : ∀ mid, r ≠ .ok mid) :
      ChainOfThree fuel a b c input r a' b c
  | second {a' b' : ExecUnit} {x : List Int} (ha : execute fuel a input = some (.ok x, a'))
      (hb : execute fuel b x = some (r, b')) (hnot : ∀ mid, r ≠ .ok mid) : ChainOfThree fuel a b c input r a' b' c
  | third {a' b' c' : ExecUnit} {x y : List Int} (ha : execute fuel a input = some (.ok x, a'))
      (hb : execute fuel b x = some (.ok y, b')) (hc : execute fuel c y = some (r, c')) :
      ChainOfThree fuel a b c input r a' b' c'

section
variable {fuel : Nat} {a b c u' : ExecUnit} {input : List Int} {r : Result}

theorem execute_leftBracketing_iff :
    execute fuel (.pipe (.pipe a b) c) input = some (r, u') ↔
      ∃ a' b' c', ChainOfThree fuel a b c input r a' b' c' ∧ u' = .pipe (.pipe a' b') c' := by
  constructor
  · intro h
    obtain ⟨y, _, c', hab, hc, rfl⟩ | ⟨_, hab, hnot, rfl⟩ := execute_pipe_iff.1 h
    · obtain ⟨x, a', b', ha, hb, rfl⟩ | ⟨_, -, hy, -⟩ := execute_pipe_iff.1 hab
      · exact ⟨_, _, _, .third ha hb hc, rfl⟩
      · exact absurd rfl (hy y)
    · obtain ⟨x, a', b', ha, hb, rfl⟩ | ⟨a', ha, -, rfl⟩ := execute_pipe_iff.1 hab
      · exact ⟨_, _, _, .second ha hb hnot, rfl⟩
      · exact ⟨_, _, _, .first ha hnot, rfl⟩
  · rintro ⟨a', b', c', hchain, rfl⟩
    cases hchain with
    | first ha hnot => exact execute_pipe_iff.2 (.inr ⟨_, execute_pipe_iff.2 (.inr ⟨_, ha, hnot, rfl⟩), hnot, rfl⟩)
    | second ha hb hnot =>
      exact execute_pipe_iff.2 (.inr ⟨_, execute_pipe_iff.2 (.inl ⟨_, _, _, ha, hb, rfl⟩), hnot, rfl⟩)
    | third ha hb hc =>
      exact execute_pipe_iff.2 (.inl ⟨_, _, _, execute_pipe_iff.2 (.inl ⟨_, _, _, ha, hb, rfl⟩), hc, rfl⟩)

theorem execute_rightBracketing_iff :
    execute fuel (.pipe a (.pipe b c)) input = some (r, u') ↔
      ∃ a' b' c', ChainOfThree fuel a b c input r a' b' c' ∧ u' = .pipe a' (.pipe b' c') := by
  constructor
  · intro h
    obtain ⟨x, a', _, ha, hbc, rfl⟩ | ⟨a', ha, hnot, rfl⟩ := execute_pipe_iff.1 h
    · obtain ⟨y, b', c', hb, hc, rfl⟩ | ⟨b', hb, hnot, rfl⟩ := execute_pipe_iff.1 hbc
      · exact ⟨_, _, _, .third ha hb hc, rfl⟩
      · exact ⟨_, _, _, .second ha hb hnot, rfl⟩
    · exact ⟨_, _, _, .first ha hnot, rfl⟩
  · rintro ⟨a', b', c', hchain, rfl⟩
    cases hchain with
    | first ha hnot => exact execute_pipe_iff.2 (.inr ⟨_, ha, hnot, rfl⟩)
    | second ha hb hnot =>
      exact execute_pipe_iff.2 (.inl ⟨_, _, _, ha, execute_pipe_iff.2 (.inr ⟨_, hb, hnot, rfl⟩), rfl⟩)
    | third ha hb hc =>
      exact execute_pipe_iff.2 (.inl ⟨_, _, _, ha, execute_pipe_iff.2 (.inl ⟨_, _, _, hb, hc, rfl⟩), rfl⟩)

end

theorem execute_eq_none_iff {fuel : Nat} {u : ExecUnit} {input : List Int} :
    execute fuel u input = none ↔ ∀ r u', execute fuel u input ≠ some (r, u') := by
  rw [Option.eq_none_iff_forall_ne_some, Prod.forall]

/-! ## The caller's other operations -/

theorem step_performs {s : State} {q : Request} {rest : List Request} (hcall : s.call = none) (hrequests : s.requests = q :: rest) :
    step s = perform q { s with requests := rest } := by
  rw [step_between_calls hcall, serve, hrequests]

theorem unitAt_while_performing {s : State} {h : Nat} {u : ExecUnit} (hunit : s.units[h]? = some (some u))
    (rest : List Request) : unitAt { s with requests := rest } h = some u := by
  rw [unitAt, hunit]; rfl

theorem giveUnit_new (s : State) (u : ExecUnit) : (giveUnit s u).units[s.units.length]? = some (some u) :=
  List.getElem?_concat_length

theorem giveUnit_old {s : State} {j : Nat} (hj : j < s.units.length) (u : ExecUnit) :
    (giveUnit s u).units[j]? = s.units[j]? :=
  List.getElem?_append_left hj

/-- The state in which the handles `a` and `b` name nothing (spec/46_machine_and_pipe.md R179: the units pass into a pipe). -/
def emptied (a b : Nat) (s : State) : State := { s with units := (s.units.set a none).set b none }

theorem length_units_emptied (a b : Nat) (s : State) : (emptied a b s).units.length = s.units.length := by
  simp [emptied]

/-! ## The statements -/

/-- Settles O35: a call on the unit comes to its end with the unit and the result of `execute` (`reaches_end_of_execute`), and with
no pipe around it the next step gives them to the caller. -/
theorem stepsComputeExecute : Obligations.StepsComputeExecute := by
  intro fuel u u' input r s h rest hasks hexecute
  obtain ⟨c, hreach, hended, rfl, hon⟩ :=
    reaches_end_of_execute { s with units := s.units.set h none, requests := rest } h [] hexecute
  have hreturn := step_hands_on (s := { s with units := s.units.set c.handle none, requests := rest, call := some c }) rfl hended
  rw [returnCall_of_back hon] at hreturn
  obtain ⟨n, hn⟩ := (Reaches.of_step hasks.step_begins).trans (hreach.trans (.of_step hreturn))
  obtain ⟨hcall, -⟩ := hasks
  exact ⟨n, by simpa only [List.set_set, hcall] using hn⟩

/-- Settles O20: the engine refuses a Finished machine in its first action (`runSteps_call_ended_at_entry`). -/
theorem callOnFinishedMachineIsRefused : Obligations.CallOnFinishedMachineIsRefused := by
  intro s h input rest m hasks hfault hfinished
  refine runSteps_call_ended_at_entry hasks ?_
  simp [openCall_machine, engine, runnable, enterCall, hfault, hfinished]

/-- Settles O32: a result that is not `Ok` passes out of every pipe around its machine (`handOn_of_not_ok`). -/
theorem failureEndsTheWholePipeCall : Obligations.FailureEndsTheWholePipeCall := by
  intro s c r hcall hended hnot
  rw [step_hands_on hcall hended, returnCall_of_back (handOn_of_not_ok hnot c.ctx)]

/-- Settles O33: `unitFinished_iff`, and a Finished machine is inert (`unitFinished_after_execute`). -/
theorem finishedIffSomeMachineIsFinished : Obligations.FinishedIffSomeMachineIsFinished := by
  refine ⟨fun s h rest u hcall hrequests hunit => ⟨unitFinished u, ?_, unitFinished_iff⟩,
    fun _ _ _ _ _ h => unitFinished_after_execute h⟩
  rw [step_performs hcall hrequests, perform, serveFinished, unitAt_while_performing hunit]
  rfl

/-- Settles O34: a call on either bracketing is the call on the three units in a row. -/
theorem pipesComposeAssociatively : Obligations.PipesComposeAssociatively := by
  intro fuel a b c input
  refine ⟨fun r a' b' c' => ?_, ?_, Bool.or_assoc ..⟩
  · simp [execute_leftBracketing_iff, execute_rightBracketing_iff]
  · simp only [execute_eq_none_iff, ne_eq, execute_leftBracketing_iff, execute_rightBracketing_iff]
    exact ⟨fun h r _ ⟨_, _, _, hchain, _⟩ => h r _ ⟨_, _, _, hchain, rfl⟩,
      fun h r _ ⟨_, _, _, hchain, _⟩ => h r _ ⟨_, _, _, hchain, rfl⟩⟩

/-- Settles O37: `waiting_or_finished_of_ok`, and `unitFinished_iff`. -/
theorem okLeavesEveryMachineWaitingOrFinished : Obligations.OkLeavesEveryMachineWaitingOrFinished :=
  fun _ _ _ _ _ h => ⟨waiting_or_finished_of_ok h, fun m hm hfinished => unitFinished_iff.2 ⟨m, hm, hfinished⟩⟩

/-- Settles O42: the image is of Words and not too long, so the new machine is given under the next handle. -/
theorem constructGivesANewMachine : Obligations.ConstructGivesANewMachine := by
  intro s image rest hcall hrequests hwords hlength
  have hfits : image.length ≤ Config.maxMemLen := hlength
  rw [step_performs hcall hrequests, perform, serveConstruct, if_pos hwords, if_pos hfits]
  rfl

/-- Settles O43: the clone is given under the next handle, so the original keeps its own. -/
theorem cloneGivesAnEqualMachine : Obligations.CloneGivesAnEqualMachine := by
  intro s h m rest hcall hrequests hunit
  have hstep : step s = .next (giveUnit { s with requests := rest } (.machine m)) := by
    rw [step_performs hcall hrequests, perform, serveClone, unitAt_while_performing hunit]
  have hlt : h < s.units.length := (List.getElem?_eq_some_iff.1 hunit).1
  exact ⟨_, hstep, (giveUnit_old hlt _).trans hunit, giveUnit_new _ _, rfl, hcall, rfl⟩

/-- Settles O44: the two handles are emptied, and the pipe of the two units is given under the next one. -/
theorem composePassesOwnershipToThePipe : Obligations.ComposePassesOwnershipToThePipe := by
  intro s a b ua ub rest hcall hrequests hne ha hb
  have hstep : step s = .next (giveUnit (emptied a b { s with requests := rest }) (.pipe ua ub)) := by
    rw [step_performs hcall hrequests, perform, serveCompose, if_neg hne, unitAt_while_performing ha,
      unitAt_while_performing hb]
    rfl
  have hlength := length_units_emptied a b { s with requests := rest }
  have hlta : a < s.units.length := (List.getElem?_eq_some_iff.1 ha).1
  have hltb : b < s.units.length := (List.getElem?_eq_some_iff.1 hb).1
  have hold {j : Nat} (hj : j < s.units.length) :
      (giveUnit (emptied a b { s with requests := rest }) (.pipe ua ub)).units[j]? = ((s.units.set a none).set b none)[j]? :=
    giveUnit_old (hlength.symm ▸ hj) _
  refine ⟨_, hstep, hlength ▸ giveUnit_new _ _, (hold hlta).trans ?_, (hold hltb).trans ?_,
    fun j hj hja hjb => (hold hj).trans ?_, ?_, hcall, rfl⟩
  · exact (List.getElem?_set_ne hne.symm).trans (List.getElem?_set_self hlta)
  · exact List.getElem?_set_self (by simpa using hltb)
  · exact (List.getElem?_set_ne hjb.symm).trans (List.getElem?_set_ne hja.symm)
  · rw [← hlength]; rfl

/-- Settles O45: the reply to a snapshot is the machine's memory. -/
theorem snapshotShowsAllCells : Obligations.SnapshotShowsAllCells := by
  intro s h m rest hcall hrequests hunit
  rw [step_performs hcall hrequests, perform, serveSnapshot, unitAt_while_performing hunit]
  rfl

/-- Settles O56, by the two answers of `load`. -/
theorem loadAnswersTheImageOrTheError : Obligations.LoadAnswersTheImageOrTheError := by
  intro s text rest hcall hrequests
  rw [step_performs hcall hrequests, perform, serveLoad]
  refine ⟨fun image hload => ?_, fun hload => ?_⟩
  · rw [hload]; rfl
  · rw [hload]; rfl

end Sys2Proof.Machine
end

section
/-! SUPPORT. Failures (spec/60_exceptions.md): the one way an operation ends a call with a failure, and inert machines (R213, R222). -/

namespace Sys2Proof.Machine

/-- Of the things an operation can do to a call that goes on, only the failure entry (spec/60_exceptions.md R210) ends it with a
failure, and the failure is one the operation can raise (R209). -/
theorem Effect.eq_raise_of_err {i : Instr} {c c' : Call} {f : Fault} (h : Effect i c c') (hgoing : c.ended = none)
    (herr : c'.ended = some (.err f)) : c' = raise f c ∧ f ∈ raisable i := by
  cases h with
  | raised f' hf => cases herr; exact ⟨rfl, hf⟩
  | suspended | halted => cases herr
  | stored | received | emitted | jumped => cases hgoing.symm.trans herr

/-- The engine's first action on a failed machine returns its failure again (spec/60_exceptions.md R213). -/
theorem engine_of_failed {c : Call} {f : Fault} (hfault : c.machine.fault = some f) : engine c = endCall (.err f) c := by
  have hstopped : ¬ runnable c.machine = true := by simp [runnable_iff, hfault]
  rw [engine, if_neg hstopped, enterCall, hfault]

/-- A call on a unit leaves each of its Finished and failed machines as it is (spec/60_exceptions.md R222): a machine that was inert
before an action is the same, so still inert, before the next. -/
theorem execute_keeps_inert {fuel : Nat} {u u' : ExecUnit} {input : List Int} {r : Result}
    (h : execute fuel u input = some (r, u')) :
    List.Forall₂ (fun m m' => m.runState = .finished ∨ m.fault ≠ none → m' = m) (unitMachines u) (unitMachines u') := by
  refine execute_keeps (fun _ _ => rfl) (fun m₁ m₂ m₃ h₁ h₂ hinert => ?_) (fun _ _ => engine_machine_of_inert) h
  obtain rfl := h₁ hinert
  exact h₂ hinert

/-! ## The statements -/

/-- Settles O17: the failing operation takes the failure entry (`Effect.eq_raise_of_err`), and `raise` sets the latch alone. -/
theorem failureChangesOnlyTheLatch : Obligations.FailureChangesOnlyTheLatch :=
  fun _ _ _ _ _ h hgoing herr => (h.effect.eq_raise_of_err hgoing herr).1

/-- Settles O18: the failing operation takes the failure entry with a failure of its row (`Effect.eq_raise_of_err`). -/
theorem onlyTabulatedFailuresAreRaised : Obligations.OnlyTabulatedFailuresAreRaised :=
  fun _ _ _ _ _ h hgoing herr => (h.effect.eq_raise_of_err hgoing herr).2

/-- Settles O19: the engine ends the call in its first action (`engine_of_failed`), with the machine as it was. -/
theorem callOnFailedMachineReturnsItsFailure : Obligations.CallOnFailedMachineReturnsItsFailure :=
  fun _ _ _ _ _ _ hasks hfault => runSteps_call_ended_at_entry hasks (engine_of_failed hfault)

/-- Settles O40: `execute_keeps_inert`. -/
theorem inertMachinesStayAsTheyAre : Obligations.InertMachinesStayAsTheyAre :=
  fun _ _ _ _ _ => execute_keeps_inert

/-- Settles O47: between calls a step serves the next request, and with none there `serve` answers the same state. -/
theorem nothingHappensBetweenCalls : Obligations.NothingHappensBetweenCalls := by
  intro s hcall hrequests
  rw [step_between_calls hcall, serve, hrequests]

end Sys2Proof.Machine
end

section
/-! SUPPORT. What the loader reads (spec/70_reset_and_hazards.md R236, R237): one equivalence per reader, from the decimal digit
up to the element and the elements in order. -/

namespace Sys2Proof.Machine

/-! ## The decimal digits -/

theorem digitValue_eq_some_iff {ch : Char} {d : Nat} : digitValue ch = some d ↔ d < 10 ∧ ch = Char.ofNat (48 + d) := by
  refine ⟨fun h => ?_, fun ⟨hlt, hch⟩ => hch ▸ digitValue_ofNat hlt⟩
  simp only [digitValue, Bool.and_eq_true, decide_eq_true_eq, Option.ite_none_right_eq_some, Option.some.injEq] at h
  obtain ⟨⟨hlow, hhigh⟩, rfl⟩ := h
  refine ⟨by omega, ?_⟩
  rw [Nat.add_sub_cancel' hlow, Char.ofNat_toNat]

/-- `text` is the decimal digits `ds`, most significant first. -/
def ShowsDigits (text : List Char) (ds : List Nat) : Prop :=
  (∀ d ∈ ds, d < 10) ∧ text = ds.map fun d => Char.ofNat (48 + d)

theorem showsDigits_nil_iff {ds : List Nat} : ShowsDigits [] ds ↔ ds = [] := by
  constructor
  · rintro ⟨-, htext⟩
    exact List.map_eq_nil_iff.1 htext.symm
  · rintro rfl
    exact ⟨nofun, rfl⟩

theorem showsDigits_cons_iff {ch : Char} {rest : List Char} {ds : List Nat} :
    ShowsDigits (ch :: rest) ds ↔ ∃ d ds', ds = d :: ds' ∧ digitValue ch = some d ∧ ShowsDigits rest ds' := by
  constructor
  · rintro ⟨hdigits, htext⟩
    obtain ⟨d, ds', rfl, hch, hrest⟩ := List.map_eq_cons_iff.1 htext.symm
    obtain ⟨hd, hds'⟩ := List.forall_mem_cons.1 hdigits
    exact ⟨d, ds', rfl, digitValue_eq_some_iff.2 ⟨hd, hch.symm⟩, hds', hrest.symm⟩
  · rintro ⟨d, ds', rfl, hch, hds', rfl⟩
    obtain ⟨hd, rfl⟩ := digitValue_eq_some_iff.1 hch
    exact ⟨List.forall_mem_cons.2 ⟨hd, hds'⟩, rfl⟩

theorem readDigits_eq_some_iff {text : List Char} {acc n : Nat} :
    readDigits acc text = some n ↔ ∃ ds, ShowsDigits text ds ∧ n = ds.foldl (fun acc d => 10 * acc + d) acc := by
  induction text generalizing acc with
  | nil => simp [readDigits, showsDigits_nil_iff, eq_comm]
  | cons ch rest ih =>
    rw [readDigits]
    cases hch : digitValue ch with
    | none => simp [showsDigits_cons_iff, hch]
    | some d =>
      simp only [ih, showsDigits_cons_iff, hch]
      constructor
      · rintro ⟨ds, hds, hn⟩
        exact ⟨d :: ds, ⟨d, ds, rfl, rfl, hds⟩, hn⟩
      · rintro ⟨-, ⟨_, ds, rfl, ⟨⟩, hds⟩, hn⟩
        exact ⟨ds, hds, hn⟩

/-! ## One element -/

theorem readNat_eq_some_iff {text : List Char} {n : Nat} :
    readNat text = some n ↔ ∃ ds, ds ≠ [] ∧ ShowsDigits text ds ∧ n = digitsValue ds := by
  cases text with
  | nil => simp [readNat, showsDigits_nil_iff]
  | cons ch rest =>
    have hne {ds : List Nat} (h : ShowsDigits (ch :: rest) ds) : ds ≠ [] := by
      obtain ⟨d, ds', rfl, -⟩ := showsDigits_cons_iff.1 h
      exact List.cons_ne_nil d ds'
    rw [readNat, readDigits_eq_some_iff]
    exact exists_congr fun ds => ⟨fun ⟨hds, hn⟩ => ⟨hne hds, hds, hn⟩, fun ⟨_, hds, hn⟩ => ⟨hds, hn⟩⟩

/-- No digit is a minus, so a text is read with a sign or without one, never both ways. -/
theorem readNat_minus (rest : List Char) : readNat ('-' :: rest) = none := by
  have hminus : digitValue '-' = none := by decide
  rw [readNat, readDigits, hminus]

theorem readInt_minus_eq_map (rest : List Char) :
    readInt ('-' :: rest) = Option.map (fun n : Nat => -(n : Int)) (readNat rest) := by
  rw [readInt]
  cases readNat rest <;> rfl

theorem readInt_eq_map_of_no_minus {text : List Char} (h : ∀ rest, text ≠ '-' :: rest) :
    readInt text = Option.map (fun n : Nat => (n : Int)) (readNat text) := by
  rw [readInt]
  · cases readNat text <;> rfl
  · exact h

theorem readInt_eq_some_iff {text : List Char} {v : Int} :
    readInt text = some v ↔
      (∃ n : Nat, readNat text = some n ∧ v = n) ∨
        ∃ (rest : List Char) (n : Nat), text = '-' :: rest ∧ readNat rest = some n ∧ v = -(n : Int) := by
  by_cases hminus : ∃ rest, text = '-' :: rest
  · obtain ⟨rest, rfl⟩ := hminus
    simp [readInt_minus_eq_map, readNat_minus, eq_comm]
  · have hno : ∀ rest, text ≠ '-' :: rest := not_exists.1 hminus
    simp [readInt_eq_map_of_no_minus hno, hno, eq_comm]

theorem readElement_eq_some_iff {part : List Char} {v : Int} :
    readElement part = some v ↔ isWord v = true ∧ readInt part = some v := by
  rw [readElement]
  cases readInt part with
  | none => simp
  | some w =>
    simp only [Option.ite_none_right_eq_some]
    exact and_congr_left fun heq => by cases heq; rfl

/-! ## The elements in order -/

theorem length_splitAll (sep : Char) (text : List Char) : (splitAll sep text).length = text.count sep + 1 := by
  induction text with
  | nil => rfl
  | cons ch rest ih =>
    by_cases hch : ch = sep
    · subst hch
      rw [splitAll_sep_cons, List.length_cons, ih, List.count_cons_self]
    · obtain ⟨part, parts, hsplit⟩ := List.exists_cons_of_ne_nil (splitAll_ne_nil sep rest)
      rw [splitAll_cons_of_ne hch hsplit, List.count_cons_of_ne hch, ← ih, hsplit]
      rfl

theorem forall₂_of_readElements {parts : List (List Char)} {image : List Int} (h : readElements parts = some image) :
    List.Forall₂ (fun part v => readElement part = some v) parts image := by
  induction parts generalizing image with
  | nil => cases h; exact .nil
  | cons part parts ih =>
    rw [readElements] at h
    split at h
    case _ v vs hv hvs => cases h; exact .cons hv (ih hvs)
    case _ => cases h

theorem isWord_of_forall₂_readElement {parts : List (List Char)} {image : List Int}
    (h : List.Forall₂ (fun part v => readElement part = some v) parts image) : ∀ v ∈ image, isWord v = true := by
  induction h with
  | nil => exact nofun
  | cons hv _ ih => exact List.forall_mem_cons.2 ⟨(readElement_eq_some_iff.1 hv).1, ih⟩

/-! ## The statements -/

/-- Settles O49: `readElement_eq_some_iff`, with the digits of each sign from `readNat_eq_some_iff`. -/
theorem loadElementIsASignedDecimalWord : Obligations.LoadElementIsASignedDecimalWord := by
  intro part v
  rw [readElement_eq_some_iff, readInt_eq_some_iff]
  refine and_congr_right fun _ => ?_
  constructor
  · rintro (⟨n, hn, hv⟩ | ⟨rest, n, rfl, hn, hv⟩)
    · obtain ⟨ds, hne, ⟨hdigits, htext⟩, rfl⟩ := readNat_eq_some_iff.1 hn
      exact ⟨ds, hne, hdigits, .inl ⟨htext, hv⟩⟩
    · obtain ⟨ds, hne, ⟨hdigits, rfl⟩, rfl⟩ := readNat_eq_some_iff.1 hn
      exact ⟨ds, hne, hdigits, .inr ⟨rfl, hv⟩⟩
  · rintro ⟨ds, hne, hdigits, ⟨htext, hv⟩ | ⟨htext, hv⟩⟩
    · exact .inl ⟨_, readNat_eq_some_iff.2 ⟨ds, hne, ⟨hdigits, htext⟩, rfl⟩, hv⟩
    · exact .inr ⟨_, _, htext, readNat_eq_some_iff.2 ⟨ds, hne, ⟨hdigits, rfl⟩, rfl⟩, hv⟩

/-- Settles O50: one cell per part of the split (`length_splitAll`), each of them an element. -/
theorem loadedImageHasOneCellPerElement : Obligations.LoadedImageHasOneCellPerElement := by
  intro text image hload
  have hread := forall₂_of_readElements hload
  exact ⟨hread.length_eq.symm.trans (length_splitAll ',' (trim text)),
    List.all_eq_true.2 (isWord_of_forall₂_readElement hread)⟩

end Sys2Proof.Machine
end

section
/-! SUPPORT. The refusals of operations that the spec does not define (spec/93_implementation_defined.md U11, U13). -/

namespace Sys2Proof.Machine

/-- Settles O46: a composition compares the handles before it looks for any unit; a snapshot and a clone look at the unit. -/
theorem undefinedOperationsAreRefused : Obligations.UndefinedOperationsAreRefused := by
  intro s h rest hcall
  refine ⟨fun hrequests => ?_, fun a b hunit => ⟨fun hrequests => ?_, fun hrequests => ?_⟩⟩
  · rw [step_performs hcall hrequests, perform, serveCompose, if_pos rfl]
  · rw [step_performs hcall hrequests, perform, serveSnapshot, unitAt_while_performing hunit]
  · rw [step_performs hcall hrequests, perform, serveClone, unitAt_while_performing hunit]

end Sys2Proof.Machine
end
